-- ==== Sys2Proof/Word.lean ====
section
/-! DEFINITION. The word types of the frame block: every quantity is unsigned (00_scope.md R9, R16). -/

namespace Sys2Proof

/-- A byte, `u8` (R9). -/
abbrev Byte := BitVec 8

/-- A 16-bit value, `u16` (R9). -/
abbrev Half := BitVec 16

/-- RemoteAddress: ten opaque bytes in wire order, the serial number first (10_state.md R32). -/
abbrev RemoteAddress := Vector Byte 10

end Sys2Proof
end

