-- ==== Sys2Proof/Config.lean ====
section
/-! DEFINITION. The implementation parameters (00_scope.md R6) and the values the spec leaves open. -/

namespace Sys2Proof

/-- `ROUND_TIES`: how `round` treats an exact half (R6, R11). -/
inductive RoundTies where
  | halfUp
  | halfEven
  deriving DecidableEq, Repr

/-- `CNV_TEMP_MODE`: whether the millivolts of `CNV.TEMP` are truncated or real (R6, R197). -/
inductive TempMode where
  | truncInt
  | real
  deriving DecidableEq, Repr

/-- The static configuration of one block (R6, 10_state.md R38). It is fixed before the first byte
and no operation changes it (70_reset_and_hazards.md R263; log 2). -/
structure Params where
  /-- `MAX_PAYLOAD`, 0 to 65535: the capacity of the payload buffer. -/
  maxPayload : Half
  /-- `ROUND_TIES`. -/
  roundTies : RoundTies
  /-- `CNV_TEMP_MODE`. -/
  tempMode : TempMode
  /-- `TEMP_CHANNEL`, 0 to 7; no rule reads it (43_scaling.md R198). -/
  tempChannel : BitVec 3
  deriving DecidableEq, Repr

namespace Config

/-- `MAX_PAYLOAD` of the block that `State.reset` is: OPEN, so a free value (R6, D6; log 1). -/
opaque maxPayload : Half

/-- `TEMP_CHANNEL` of the block that `State.reset` is: OPEN, so a free value (R6, D23; log 4). -/
opaque tempChannel : BitVec 3

/-- What the payload buffer reads as at an address nothing has written: unspecified, so a free value
(10_state.md R39, U3; log 10). -/
opaque deadByte : Nat → Byte

/-- The configuration of the block that `State.reset` is: the two settings R6 fixes (log 3) and the
two it leaves open. -/
def params : Params :=
  { maxPayload := maxPayload, roundTies := .halfUp, tempMode := .truncInt, tempChannel := tempChannel }

end Config

end Sys2Proof
end

