-- ==== Sys2Proof/Syntax.lean ====
section
/-! DEFINITION. The operations of the block, one constructor per row of spec/opcode_table.json, and the
values they take (10_state.md R30 to R33). -/

namespace Sys2Proof

/-- The four registers of ASM that the dispatch of `ASM.STEP` reads (10_state.md R21 to R24). -/
structure AsmRegs where
  /-- Control state, 3 bits, numbered as R21 numbers it. -/
  st : BitVec 3
  /-- Length accumulator. -/
  len : Half
  /-- Remaining-byte counter. -/
  rem : Half
  /-- Bytes-written counter. -/
  wr : Half
  deriving DecidableEq, Repr

/-- `Ready` (R21). -/
abbrev stReady : BitVec 3 := 0#3
/-- `ReadLengthHigh` (R21). -/
abbrev stLengthHigh : BitVec 3 := 1#3
/-- `ReadLengthLow` (R21). -/
abbrev stLengthLow : BitVec 3 := 2#3
/-- `ReadPayload` (R21). -/
abbrev stPayload : BitVec 3 := 3#3
/-- `Complete`, transient (R21). -/
abbrev stComplete : BitVec 3 := 4#3
/-- `Invalid`, transient (R21). -/
abbrev stInvalid : BitVec 3 := 5#3

/-- The eight arms of `ASM.STEP` (30_encoding.md R86). -/
inductive AsmArm where
  | badst | sof | skip | lenh | lenl | lenlOvf | pay | ck
  deriving DecidableEq, Repr

/-- A Frame (10_state.md R30). Its `length` always equals the number of payload bytes, so it is stored
once, as the payload, and read by `Frame.length` (log 14). -/
structure Frame where
  payload : List Byte
  checksum : Byte
  deriving DecidableEq, Repr

/-- The instructions: the rows of spec/opcode_table.json. -/
inductive Instr where
  /-- ASM.BADST (R138): byte `b` arrives in a state that is not well-formed. -/
  | asmBadst (b : Byte)
  /-- ASM.SOF (R131): the byte is `0x7E`. -/
  | asmSof
  /-- ASM.SKIP (R132). -/
  | asmSkip (b : Byte)
  /-- ASM.LENH (R133). -/
  | asmLenh (b : Byte)
  /-- ASM.LENL (R134). -/
  | asmLenl (b : Byte)
  /-- ASM.LENL.OVF (R135). -/
  | asmLenlOvf (b : Byte)
  /-- ASM.PAY (R136). -/
  | asmPay (b : Byte)
  /-- ASM.CK (R137). -/
  | asmCk (b : Byte)
  /-- DEC.DECODE.IO (R160): a frame of type `0x92`. -/
  | decIo (f : Frame)
  /-- DEC.DECODE.NA (R161): a frame of another type, or an empty one. -/
  | decNa (f : Frame)
  /-- BLD.BUILD.D4.HIGH (R210). -/
  | bldD4High (dest : RemoteAddress)
  /-- BLD.BUILD.D4.LOW (R210). -/
  | bldD4Low (dest : RemoteAddress)
  /-- BLD.BUILD.D5.HIGH (R210). -/
  | bldD5High (dest : RemoteAddress)
  /-- BLD.BUILD.D5.LOW (R210). -/
  | bldD5Low (dest : RemoteAddress)
  /-- BLD.BUILD.D6.HIGH (R210). -/
  | bldD6High (dest : RemoteAddress)
  /-- BLD.BUILD.D6.LOW (R210). -/
  | bldD6Low (dest : RemoteAddress)
  /-- BLD.BUILD.D7.HIGH (R210). -/
  | bldD7High (dest : RemoteAddress)
  /-- BLD.BUILD.D7.LOW (R210). -/
  | bldD7Low (dest : RemoteAddress)
  /-- BLD.BUILD.ERR (R212): `pin` is 0 to 3, so `pin[2] = 0` and two bits say which. -/
  | bldErr (pin : BitVec 2) (level : Bool) (dest : RemoteAddress)
  /-- CKS.COMPUTE (R120). -/
  | cksCompute (bytes : List Byte)
  /-- CKS.VERIFY (R121). -/
  | cksVerify (bytes : List Byte) (claimed : Byte)
  /-- ASM.STEP (R130). -/
  | asmStep (b : Byte)
  /-- ASM.FEED (R139). -/
  | asmFeed (chunk : List Byte)
  /-- ASM.RESET (R260). -/
  | asmReset
  /-- CNV.PCT (R191); `none` is NotAvailable (R190). -/
  | cnvPct (raw : Option Half)
  /-- CNV.TEMP (R195); `none` is NotAvailable (R190). -/
  | cnvTemp (raw : Option Half)
  deriving DecidableEq, Repr

end Sys2Proof
end

