-- ==== Sys2Proof/WellFormed.lean ====
section
/-! DEFINITION. Which instructions are operations of the spec: the conditions of a row that speak of its
operands alone (spec/opcode_table.json, columns match, mask and cond). -/

namespace Sys2Proof

/-- A frame's length fits the 16-bit length field (10_state.md R30). -/
def Frame.fits (f : Frame) : Bool := decide (f.payload.length ≤ 65535)

/-- The frame's type is `0x92`; an empty frame has no type (30_encoding.md R87). -/
def Frame.isIo (f : Frame) : Bool := f.payload.head? == some 0x92#8

/-- Well-formed instructions. `ASM.SKIP` takes any byte but `0x7E` (R86), a decode row a frame whose
length fits (R30) and whose type is the row's (R87). Every other operand is legal (R98, R120, R139). -/
def WellFormed : Instr → Bool
  | .asmBadst _ => true
  | .asmSof => true
  | .asmSkip b => b != 0x7E#8
  | .asmLenh _ => true
  | .asmLenl _ => true
  | .asmLenlOvf _ => true
  | .asmPay _ => true
  | .asmCk _ => true
  | .decIo f => f.fits && f.isIo
  | .decNa f => f.fits && !f.isIo
  | .bldD4High _ => true
  | .bldD4Low _ => true
  | .bldD5High _ => true
  | .bldD5Low _ => true
  | .bldD6High _ => true
  | .bldD6Low _ => true
  | .bldD7High _ => true
  | .bldD7Low _ => true
  | .bldErr _ _ _ => true
  | .cksCompute _ => true
  | .cksVerify _ _ => true
  | .asmStep _ => true
  | .asmFeed _ => true
  | .asmReset => true
  | .cnvPct _ => true
  | .cnvTemp _ => true

end Sys2Proof
end

