-- ==== Sys2Proof/Decode.lean ====
section
/-! DEFINITION. Selecting an operation: the dispatch of ASM (30_encoding.md R86), the frame-type and
builder selectors (R87, R93), the request records that carry operations and operands (the model's
format, log 6), the decoder over them and, after it, the encoder. -/

namespace Sys2Proof

/-! ### Byte order -/

/-- `be16(h, l) = 256 * h + l` (00_scope.md R10, 20_memory.md R55). -/
def be16 (h l : Byte) : Half := BitVec.ofNat 16 (256 * h.toNat + l.toNat)

/-- `v[15:8]`. -/
def hiByte (v : Half) : Byte := v.extractLsb' 8 8

/-- `v[7:0]`. -/
def loByte (v : Half) : Byte := v.extractLsb' 0 8

/-- The 16-bit length of a frame (10_state.md R30). -/
def Frame.length (f : Frame) : Half := BitVec.ofNat 16 f.payload.length

/-! ### The dispatch of ASM -/

/-- `v > MAX_PAYLOAD`. -/
def exceeds (max v : Half) : Bool := decide (max.toNat < v.toNat)

/-- `WF(st, len, rem, wr)` (10_state.md R26); the sum `wr + rem` is exact (R11). -/
def wfRegs (max : Half) (r : AsmRegs) : Bool :=
  (r.st == stReady && r.len == 0#16 && r.rem == 0#16 && r.wr == 0#16) ||
  (r.st == stLengthHigh && r.len == 0#16 && r.rem == 0#16 && r.wr == 0#16) ||
  (r.st == stLengthLow && loByte r.len == 0#8 && r.rem == 0#16 && r.wr == 0#16) ||
  (r.st == stPayload && !exceeds max r.len && decide (r.wr.toNat + r.rem.toNat = r.len.toNat))

/-- `L = 256 * len[15:8] + b` (R86). -/
def declaredLength (r : AsmRegs) (b : Byte) : Half := be16 (hiByte r.len) b

/-- The arm the byte `b` takes (41_assembler.md R130, 30_encoding.md R86). -/
def armOf (max : Half) (r : AsmRegs) (b : Byte) : AsmArm :=
  if !wfRegs max r then .badst
  else if r.st == stReady then (if b == 0x7E#8 then .sof else .skip)
  else if r.st == stLengthHigh then .lenh
  else if r.st == stLengthLow then (if exceeds max (declaredLength r b) then .lenlOvf else .lenl)
  else if r.rem == 0#16 then .ck
  else .pay

/-- One ASM row of spec/opcode_table.json: the row, its match, mask and priority (R102). -/
structure AsmRow where
  arm : AsmArm
  mtch : BitVec 11
  mask : BitVec 11
  priority : Nat
  deriving DecidableEq, Repr

/-- The eight ASM rows, in the table's order. -/
def asmTable : List AsmRow :=
  [ ⟨.badst, 0x000, 0x000, 3⟩, ⟨.sof, 0x07E, 0x7FF, 2⟩, ⟨.skip, 0x000, 0x700, 1⟩,
    ⟨.lenh, 0x100, 0x700, 1⟩, ⟨.lenl, 0x200, 0x700, 1⟩, ⟨.lenlOvf, 0x200, 0x700, 1⟩,
    ⟨.pay, 0x300, 0x700, 1⟩, ⟨.ck, 0x300, 0x700, 1⟩ ]

/-- The selector `sel[10:0] = st[2:0] ++ b[7:0]` (R86). -/
def asmSelector (r : AsmRegs) (b : Byte) : BitVec 11 := r.st ++ b

/-- The column `cond` of the ASM rows. -/
def armCond (max : Half) (r : AsmRegs) (b : Byte) : AsmArm → Bool
  | .badst => !wfRegs max r
  | .sof => wfRegs max r
  | .skip => wfRegs max r && b != 0x7E#8
  | .lenh => wfRegs max r
  | .lenl => wfRegs max r && !exceeds max (declaredLength r b)
  | .lenlOvf => wfRegs max r && exceeds max (declaredLength r b)
  | .pay => wfRegs max r && r.rem != 0#16
  | .ck => wfRegs max r && r.rem == 0#16

/-- "A row matches when `(sel AND mask) = match` and its `cond`, if any, holds" (R102). -/
def AsmRow.hits (max : Half) (r : AsmRegs) (b : Byte) (row : AsmRow) : Bool :=
  (asmSelector r b &&& row.mask) == row.mtch && armCond max r b row.arm

/-- The instruction of an arm that takes the byte `b`. -/
def armInstr (b : Byte) : AsmArm → Instr
  | .badst => .asmBadst b
  | .sof => .asmSof
  | .skip => .asmSkip b
  | .lenh => .asmLenh b
  | .lenl => .asmLenl b
  | .lenlOvf => .asmLenlOvf b
  | .pay => .asmPay b
  | .ck => .asmCk b

/-- In registers `r` the table selects the row of `i`: for an arm, the byte takes that arm (R86). The
other rows do not look at the registers. -/
def rowSelected (max : Half) (r : AsmRegs) : Instr → Bool
  | .asmBadst b => armOf max r b == .badst
  | .asmSof => armOf max r 0x7E#8 == .sof
  | .asmSkip b => armOf max r b == .skip
  | .asmLenh b => armOf max r b == .lenh
  | .asmLenl b => armOf max r b == .lenl
  | .asmLenlOvf b => armOf max r b == .lenlOvf
  | .asmPay b => armOf max r b == .pay
  | .asmCk b => armOf max r b == .ck
  | .decIo _ => true
  | .decNa _ => true
  | .bldD4High _ => true
  | .bldD4Low _ => true
  | .bldD5High _ => true
  | .bldD5Low _ => true
  | .bldD6High _ => true
  | .bldD6Low _ => true
  | .bldD7High _ => true
  | .bldD7Low _ => true
  | .bldErr _ _ _ => true
  | .cksCompute _ => true
  | .cksVerify _ _ => true
  | .asmStep _ => true
  | .asmFeed _ => true
  | .asmReset => true
  | .cnvPct _ => true
  | .cnvTemp _ => true

/-! ### The selectors of DEC and BLD -/

/-- The row of `DEC.DECODE` a frame selects: by `payload[0]`, when it exists (R87). -/
def decInstr (f : Frame) : Instr := if f.isIo then .decIo f else .decNa f

/-- The row of `BLD.BUILD` that `sel = pin[2:0] ++ level` selects (R93). -/
def bldInstr (sel : BitVec 4) (dest : RemoteAddress) : Instr :=
  if sel == 0x9#4 then .bldD4High dest
  else if sel == 0x8#4 then .bldD4Low dest
  else if sel == 0xB#4 then .bldD5High dest
  else if sel == 0xA#4 then .bldD5Low dest
  else if sel == 0xD#4 then .bldD6High dest
  else if sel == 0xC#4 then .bldD6Low dest
  else if sel == 0xF#4 then .bldD7High dest
  else if sel == 0xE#4 then .bldD7Low dest
  else .bldErr (sel.extractLsb' 1 2) (sel.getLsbD 0) dest

/-! ### Request records

The spec gives the operations no words, so one request is a record of bytes in a format of the model
(DESIGN CHOICE, log 6): a first byte that names the port or operation, then its operand bytes in wire
order, multi-byte values big-endian. The selectors inside a record are the spec's. -/

/-- What a request is made to: the port a byte is offered on, or an operation invoked by name. -/
inductive Port where
  /-- A byte on the port `in_data` (10_state.md R36). -/
  | inData
  /-- `ASM.STEP` by name. -/
  | asmStep
  /-- `ASM.FEED`. -/
  | asmFeed
  /-- `ASM.RESET`, the port `rst`. -/
  | asmReset
  /-- `DEC.DECODE`. -/
  | decDecode
  /-- `BLD.BUILD`. -/
  | bldBuild
  /-- `CKS.COMPUTE`. -/
  | cksCompute
  /-- `CKS.VERIFY`. -/
  | cksVerify
  /-- `CNV.PCT`. -/
  | cnvPct
  /-- `CNV.TEMP`. -/
  | cnvTemp
  deriving DecidableEq, Repr

/-- The first byte of a record (log 6). -/
def Port.code : Port → Byte
  | .inData => 0x00#8
  | .asmStep => 0x01#8
  | .asmFeed => 0x02#8
  | .asmReset => 0x03#8
  | .decDecode => 0x04#8
  | .bldBuild => 0x05#8
  | .cksCompute => 0x06#8
  | .cksVerify => 0x07#8
  | .cnvPct => 0x08#8
  | .cnvTemp => 0x09#8

/-- The ports, in the order of their codes. -/
def allPorts : List Port :=
  [.inData, .asmStep, .asmFeed, .asmReset, .decDecode, .bldBuild, .cksCompute, .cksVerify, .cnvPct, .cnvTemp]

/-- The port a first byte names. -/
def portOfByte (p : Byte) : Option Port := allPorts.find? (fun q => q.code == p)

/-- Why a record is no request. -/
inductive Reject where
  /-- The record has no byte. -/
  | emptyRecord
  /-- Its first byte names no port and no operation. -/
  | unknownPort (first : Byte)
  /-- The operation takes another number of operand bytes. -/
  | operandCount (port : Port)
  /-- The upper four bits of a builder selector byte are not 0. -/
  | selectorBits (sel : Byte)
  /-- A frame longer than the 16-bit length field can say. -/
  | frameTooLong
  deriving DecidableEq, Repr

/-- A raw analog value: two bytes, or none for NotAvailable (43_scaling.md R190). -/
def decodeRaw (port : Port) : List Byte → Except Reject (Option Half)
  | [] => .ok none
  | [h, l] => .ok (some (be16 h l))
  | _ => .error (.operandCount port)

/-- The builder's operands: the selector byte and the ten address bytes. -/
def decodeBuild : List Byte → Except Reject Instr
  | [sel, a0, a1, a2, a3, a4, a5, a6, a7, a8, a9] =>
    if sel.extractLsb' 4 4 = 0#4 then
      .ok (bldInstr (sel.extractLsb' 0 4) #v[a0, a1, a2, a3, a4, a5, a6, a7, a8, a9])
    else .error (.selectorBits sel)
  | _ => .error (.operandCount .bldBuild)

/-- A frame whose length fits. -/
def decodeFrame (f : Frame) : Except Reject Instr :=
  if f.fits then .ok (decInstr f) else .error .frameTooLong

/-- The instruction a request to a port selects, from its operand bytes. -/
def decodeOperands (max : Half) (r : AsmRegs) : Port → List Byte → Except Reject Instr
  | .inData, [b] => .ok (armInstr b (armOf max r b))
  | .asmStep, [b] => .ok (.asmStep b)
  | .asmFeed, chunk => .ok (.asmFeed chunk)
  | .asmReset, [] => .ok .asmReset
  | .decDecode, ck :: payload => decodeFrame ⟨payload, ck⟩
  | .bldBuild, ops => decodeBuild ops
  | .cksCompute, bytes => .ok (.cksCompute bytes)
  | .cksVerify, claimed :: bytes => .ok (.cksVerify bytes claimed)
  | .cnvPct, ops => (decodeRaw .cnvPct ops).map .cnvPct
  | .cnvTemp, ops => (decodeRaw .cnvTemp ops).map .cnvTemp
  | port, _ => .error (.operandCount port)

/-- The decoder: the instruction that a request record selects in a block with capacity `max` and
registers `r`. Total; what is no request is rejected by name. -/
def decode (max : Half) (r : AsmRegs) : List Byte → Except Reject Instr
  | [] => .error .emptyRecord
  | p :: ops =>
    match portOfByte p with
    | some port => decodeOperands max r port ops
    | none => .error (.unknownPort p)

/-! ### The encoder -/

/-- The operand bytes of a raw analog value. -/
def encodeRaw : Option Half → List Byte
  | none => []
  | some v => [hiByte v, loByte v]

/-- A builder record: the selector of R93, then the address. -/
def encodeBuild (sel : BitVec 4) (dest : RemoteAddress) : List Byte :=
  Port.code .bldBuild :: sel.setWidth 8 :: dest.toList

/-- The request record of an instruction. An arm is requested by the byte that takes it. -/
def encode : Instr → List Byte
  | .asmBadst b => [Port.code .inData, b]
  | .asmSof => [Port.code .inData, 0x7E#8]
  | .asmSkip b => [Port.code .inData, b]
  | .asmLenh b => [Port.code .inData, b]
  | .asmLenl b => [Port.code .inData, b]
  | .asmLenlOvf b => [Port.code .inData, b]
  | .asmPay b => [Port.code .inData, b]
  | .asmCk b => [Port.code .inData, b]
  | .decIo f => Port.code .decDecode :: f.checksum :: f.payload
  | .decNa f => Port.code .decDecode :: f.checksum :: f.payload
  | .bldD4High dest => encodeBuild 0x9#4 dest
  | .bldD4Low dest => encodeBuild 0x8#4 dest
  | .bldD5High dest => encodeBuild 0xB#4 dest
  | .bldD5Low dest => encodeBuild 0xA#4 dest
  | .bldD6High dest => encodeBuild 0xD#4 dest
  | .bldD6Low dest => encodeBuild 0xC#4 dest
  | .bldD7High dest => encodeBuild 0xF#4 dest
  | .bldD7Low dest => encodeBuild 0xE#4 dest
  | .bldErr pin level dest => encodeBuild (0#1 ++ pin ++ BitVec.ofBool level) dest
  | .cksCompute bytes => Port.code .cksCompute :: bytes
  | .cksVerify bytes claimed => Port.code .cksVerify :: claimed :: bytes
  | .asmStep b => [Port.code .asmStep, b]
  | .asmFeed chunk => Port.code .asmFeed :: chunk
  | .asmReset => [Port.code .asmReset]
  | .cnvPct raw => Port.code .cnvPct :: encodeRaw raw
  | .cnvTemp raw => Port.code .cnvTemp :: encodeRaw raw

/-! ### The words of spec/opcode_table.json -/

/-- The request and the registers that a selector word of the table stands for (log 16). Two bytes:
`st` in bits 10 to 8 and the byte in bits 7 to 0, the other registers 0. One byte: a builder selector
where it fits four bits, with an address of zeros; else `payload[0]` of a frame whose other fifteen
bytes and checksum are zero. -/
def tableRequest (nbits w : Nat) : Option (AsmRegs × List Byte) :=
  if nbits == 0 then none
  else if nbits ≤ 8 then
    if w < 16 then some (⟨stReady, 0#16, 0#16, 0#16⟩, encodeBuild (BitVec.ofNat 4 w) (Vector.replicate 10 0#8))
    else if w < 256 then
      some (⟨stReady, 0#16, 0#16, 0#16⟩, Port.code .decDecode :: 0#8 :: BitVec.ofNat 8 w :: List.replicate 15 0#8)
    else none
  else if nbits ≤ 16 then
    if w < 2048 then
      some (⟨BitVec.ofNat 3 (w / 256), 0#16, 0#16, 0#16⟩, [Port.code .inData, BitVec.ofNat 8 (w % 256)])
    else none
  else none

/-- What the decoder reads from a selector word of the table, in the block `State.reset` is. -/
def decodeTableWord (nbits w : Nat) : Option Instr :=
  match tableRequest nbits w with
  | none => none
  | some (r, record) =>
    match decode Config.maxPayload r record with
    | .ok i => some i
    | .error _ => none

end Sys2Proof
end

