-- ==== Sys2Proof/Machine/State.lean ====
section
/-! DEFINITION. The state of the hardware (10_state.md R20 to R29), the values its units answer with
(R30 to R37), the run around it that the host steps (70_reset_and_hazards.md R272), and both after reset
(R39). -/

namespace Sys2Proof.Machine

/-- The payload buffer as a sparse memory: the bytes written, addresses strictly rising. An address
that is not listed has no value (R25, R39; log 9). -/
abbrev Memory := List Host.Cell

/-- The whole architectural state of the hardware: the registers and the payload buffer of ASM (R20 to
R25). What R27 says is no state of the hardware (the configuration, emitted frames, the position in the
input) is not in this type; the operations of ASM are functions on it that take the capacity as an
argument. -/
structure AsmState where
  regs : AsmRegs
  buf : Memory
  deriving DecidableEq, Repr

/-- The `transient` output of a step (R36). -/
inductive Transient where
  | none | complete | invalid
  deriving DecidableEq, Repr

/-- An emitted frame and, beside it, the validator's verdict `ck_ok` (R36). -/
structure Emitted where
  frame : Frame
  ckOk : Bool
  deriving DecidableEq, Repr

/-- What one step of ASM gives: the state it leaves and its per-step outputs (R36). -/
structure StepAnswer where
  asm : AsmState
  transient : Transient
  frame : Option Emitted
  deriving DecidableEq, Repr

/-- IoSample (R31); `none` is NotAvailable. -/
structure IoSample where
  digitalMask : Half
  digitalValues : Half
  analogMask : Byte
  analog : Vector (Option Half) 8
  deriving DecidableEq, Repr

/-- DecodeResult (R34). -/
inductive DecodeResult where
  | notApplicable
  | ioSample (s : IoSample) (srcAddr : RemoteAddress)
  | malformed
  deriving DecidableEq, Repr

/-- BuildResult (R35): 20 bytes, or `InvalidArgument` and no byte. -/
inductive BuildResult where
  | bytes (frame : Vector Byte 20)
  | invalidArgument
  deriving DecidableEq, Repr

/-- The outputs of `CNV.TEMP` (R37). Under `CNV_TEMP_MODE = real` there is no integer `mv`
(43_scaling.md R197; log 19). -/
structure TempResult where
  mv : Option (BitVec 11)
  degCx10 : BitVec 11
  degFx10 : BitVec 12
  deriving DecidableEq, Repr

/-- The results of the operation just run: valid for that operation only (R29). Outputs that have no
value are absent (93_implementation_defined.md U14). -/
inductive Output where
  /-- No operation was run. -/
  | idle
  /-- The per-step outputs of ASM: `transient`, and the frame when `frame_valid` (R36). -/
  | step (transient : Transient) (frame : Option Emitted)
  /-- The result of `ASM.FEED` (41_assembler.md R139). -/
  | feed (frames : List Emitted)
  /-- `ck` of `CKS.COMPUTE`. -/
  | cks (ck : Byte)
  /-- `ok` of `CKS.VERIFY`. -/
  | verify (ok : Bool)
  /-- The result of `DEC.DECODE`. -/
  | dec (result : DecodeResult)
  /-- The result of `BLD.BUILD`. -/
  | bld (result : BuildResult)
  /-- `pct` of `CNV.PCT`; `none` is NotAvailable. -/
  | pct (result : Option (BitVec 7))
  /-- The results of `CNV.TEMP`; `none` is NotAvailable. -/
  | temp (result : Option TempResult)
  deriving DecidableEq, Repr

/-- A run between two operations. The hardware's own state is the part `AsmState` (R20). The other three
fields are no state of the hardware (R27) but what R272 says a run is made of beside it: its
configuration, which nothing changes (R38, log 2), the operations still to come (log 5) and what the
last one answered (log 7). The host's fixed type of `step` leaves no other place for them (log 23). -/
structure State extends AsmState where
  cfg : Params
  requests : List (List Byte)
  out : Output
  deriving DecidableEq, Repr

/-- Why the machine stops with a fault. -/
inductive Fault where
  /-- Raised by `ASM.PAY` when the payload byte would be written outside `buf[0..MAX_PAYLOAD-1]`, where
  `MemWrite` is not defined (20_memory.md R51). No state reaches it. Safe (log 13). -/
  | bufferCapacityExceeded
  deriving DecidableEq, Repr

/-- Why an instruction or a request is refused. -/
inductive Refusal where
  /-- Raised by the dispatch for an instruction that has no meaning yet. Safe. -/
  | notModelled (mnemonic : String)
  /-- Raised by an ASM arm or a decode row that is run where the table does not select it
  (30_encoding.md R102): that is no operation of the block. `step` fetches no such row. Safe (log 12). -/
  | rowNotSelected (i : Instr)
  /-- Raised by `step` for a record that is no request of the model's format. Safe (log 6). -/
  | badRequest (why : Reject)
  deriving DecidableEq, Repr

/-- The registers after reset, after a completed frame and after `Invalid`: "a model may define all
three by one constant" (70_reset_and_hazards.md R260). -/
def readyRegs : AsmRegs := ⟨stReady, 0#16, 0#16, 0#16⟩

/-- The hardware after reset (R39): `Ready` with the registers 0, no byte of the buffer known (log 9). -/
def AsmState.reset : AsmState := { regs := readyRegs, buf := [] }

/-- A run right after reset: the configuration as it is (log 1, 3, 4), no operation to come (log 5), no
result (log 7). -/
def State.reset : State :=
  { AsmState.reset with cfg := Config.params, requests := [], out := .idle }

end Sys2Proof.Machine
end

