-- ==== Sys2Proof/Machine/Ops.lean ====
section
/-! DEFINITION. The shared operations: the payload buffer (20_memory.md R51), the updates of the hardware
and of the run around it, and taking `Invalid` (60_exceptions.md R236), from which there is no return (R238). -/

namespace Sys2Proof.Machine

/-! ### The payload buffer -/

/-- The canonical form: addresses strictly rising. -/
abbrev Memory.wf (m : Memory) : Prop := m.Pairwise (fun p q => p.1 < q.1)

/-- The byte at `a`, if one was written (log 9). -/
def Memory.read : Memory → Nat → Option Byte
  | [], _ => none
  | (k, v) :: rest, a => if k = a then some v else Memory.read rest a

/-- The memory with `v` at `a`. -/
def Memory.write : Memory → Nat → Byte → Memory
  | [], a, v => [(a, v)]
  | (k, w) :: rest, a, v =>
    if a < k then (a, v) :: (k, w) :: rest
    else if a = k then (a, v) :: rest
    else (k, w) :: Memory.write rest a v

/-- `MemWrite(a, 1, v)`, defined for `a < MAX_PAYLOAD` only (R51). -/
def bufWrite (max : Half) (m : Memory) (a : Nat) (v : Byte) : Option Memory :=
  if a < max.toNat then some (m.write a v) else none

/-- One byte of the buffer as `ASM.CK` reads it: a byte nothing has written is a free value (log 10). -/
def bufByte (m : Memory) (a : Nat) : Byte := (m.read a).getD (Config.deadByte a)

/-- `MemRead(0, n)`: `buf[0..n-1]` (R51). -/
def bufRead (m : Memory) (n : Nat) : List Byte := (List.range n).map (bufByte m)

/-! ### Updates of the hardware's state -/

/-- The hardware with other registers. -/
def AsmState.withRegs (r : AsmRegs) (a : AsmState) : AsmState := { a with regs := r }

/-- The hardware with another buffer. -/
def AsmState.withBuf (m : Memory) (a : AsmState) : AsmState := { a with buf := m }

/-- The end of a step that emits nothing and passes through nothing (41_assembler.md R130). -/
def quietStep (r : AsmRegs) (a : AsmState) : StepAnswer := ⟨a.withRegs r, .none, none⟩

/-! ### Taking `Invalid` -/

/-- `raise Invalid` (60_exceptions.md R236): `len`, `rem`, `wr` cleared, `st` to `Ready` within the
step, no frame, the passage reported on `transient`; nothing is saved. The buffer's bytes, which are
dead from here on, stay (log 11). -/
def raiseInvalid (a : AsmState) : StepAnswer := ⟨a.withRegs readyRegs, .invalid, none⟩

/-! ### Updates of the run -/

/-- The run with the hardware in another state. -/
def State.withAsm (a : AsmState) (s : State) : State := { s with toAsmState := a }

/-- The state with the results of an operation. -/
def State.withOut (o : Output) (s : State) : State := { s with out := o }

/-- The state with other requests to come. -/
def State.withRequests (q : List (List Byte)) (s : State) : State := { s with requests := q }

/-- The result of a stateless unit: nothing but the outputs changes (20_memory.md R67). -/
def answer (o : Output) (s : State) : Host.Outcome State Fault Refusal := .next (s.withOut o)

/-- The run after a step of ASM: the state the step leaves, and its per-step outputs. -/
def State.afterStep (ans : StepAnswer) (s : State) : State :=
  (s.withAsm ans.asm).withOut (.step ans.transient ans.frame)

end Sys2Proof.Machine
end

