-- ==== Sys2Proof/Machine/Operands.lean ====
section
/-! DEFINITION. Operands and arithmetic: payload offsets (20_memory.md R54, R55), masks (R56), the value
CNV converts (43_scaling.md R190), rounding and clamping (00_scope.md R11), the builder's level. -/

namespace Sys2Proof.Machine

/-- The byte at payload offset `k`. Every use stands behind a length test, so that the offset exists
(20_memory.md R54). -/
def payloadByte (p : List Byte) (k : Nat) : Byte := p.getD k 0#8

/-- The big-endian 16-bit field at payload offset `k` (20_memory.md R55). -/
def payloadHalf (p : List Byte) (k : Nat) : Half := be16 (payloadByte p k) (payloadByte p (k + 1))

/-- `popcount(m)` (00_scope.md R10). -/
def popcount (m : Byte) : Nat := (List.range 8).countP (fun i => m.getLsbD i)

/-- `src_addr[i] = P[1 + i]` (42_io_decoder.md R163). -/
def sourceAddress (p : List Byte) : RemoteAddress := Vector.ofFn (fun i => payloadByte p (1 + i))

/-- `v = raw[9:0]` (43_scaling.md R190). -/
def lowTen (raw : Half) : Nat := (raw &&& 0x03FF#16).toNat

/-- `round(n / d)`: the nearest integer, an exact half by `ROUND_TIES` (00_scope.md R11). -/
def roundDiv (ties : RoundTies) (n d : Nat) : Nat :=
  if 2 * (n % d) < d then n / d
  else if d < 2 * (n % d) then n / d + 1
  else match ties with
    | .halfUp => n / d + 1
    | .halfEven => if (n / d) % 2 = 0 then n / d else n / d + 1

/-- `clamp(x, lo, hi) = min(max(x, lo), hi)` (00_scope.md R11). -/
def clamp (x lo hi : Nat) : Nat := min (max x lo) hi

/-- The ASCII digit of a pin, `0x30 + pin` (30_encoding.md R94). -/
def pinDigit (pin : BitVec 3) : Byte := 0x30#8 + pin.setWidth 8

/-- The parameter byte, inverted against `level`: `Low` is `0x05`, `High` is `0x04`
(30_encoding.md R95). -/
def levelParam (level : Bool) : Byte := if level then 0x04#8 else 0x05#8

end Sys2Proof.Machine
end

