-- ==== Sys2Proof/Machine/Flags.lean ====
section
/-! DEFINITION. The checksum and its verdict (40_checksum.md), and the status outputs with their codes
(10_state.md R34 to R36, 60_exceptions.md R230). No flag outlives its operation (R29). -/

namespace Sys2Proof.Machine

/-- `CKS.COMPUTE` (R120): `0xFF` minus the sum of the bytes modulo 256. -/
def checksum (bytes : List Byte) : Byte :=
  BitVec.ofNat 8 ((0xFF - (bytes.map BitVec.toNat).sum % 256) % 256)

/-- `CKS.VERIFY` (R121). -/
def verifies (bytes : List Byte) (claimed : Byte) : Bool := checksum bytes == claimed

/-- The frame as ASM presents it, with `ck_ok = CKS.VERIFY(payload, checksum)` (41_assembler.md R141). -/
def emitted (f : Frame) : Emitted := ⟨f, verifies f.payload f.checksum⟩

/-- The frames an output presents. -/
def Output.frames : Output → List Emitted
  | .step _ (some e) => [e]
  | .feed es => es
  | _ => []

/-- Port `state` (R36). -/
def portState (s : State) : BitVec 3 := s.regs.st

/-- Port `in_ready`: constant 1 (R36). -/
def portInReady (_ : State) : Bool := true

/-- The code of `transient` (R36). -/
def Transient.code : Transient → BitVec 2
  | .none => 0
  | .complete => 1
  | .invalid => 2

/-- Port `transient`; no value unless a step was just taken (R29). -/
def portTransient (s : State) : Option (BitVec 2) :=
  match s.out with
  | .step t _ => some t.code
  | _ => none

/-- Port `frame_valid` (R36). -/
def portFrameValid (s : State) : Option Bool :=
  match s.out with
  | .step _ f => some f.isSome
  | _ => none

/-- The frame a step just presented. -/
def portFrame (s : State) : Option Emitted :=
  match s.out with
  | .step _ f => f
  | _ => none

/-- Port `frame_length` (R36). -/
def portFrameLength (s : State) : Option Half := (portFrame s).map (fun e => e.frame.length)

/-- Port `frame_payload` (R36). -/
def portFramePayload (s : State) : Option (List Byte) := (portFrame s).map (fun e => e.frame.payload)

/-- Port `frame_checksum` (R36). -/
def portFrameChecksum (s : State) : Option Byte := (portFrame s).map (fun e => e.frame.checksum)

/-- Port `ck_ok` (R36). -/
def portCkOk (s : State) : Option Bool := (portFrame s).map (fun e => e.ckOk)

/-- The code `kind` of a decode (R34). -/
def DecodeResult.kind : DecodeResult → BitVec 2
  | .notApplicable => 0
  | .ioSample _ _ => 1
  | .malformed => 2

/-- The code `err` of a build (R35). -/
def BuildResult.err : BuildResult → BitVec 1
  | .bytes _ => 0
  | .invalidArgument => 1

end Sys2Proof.Machine
end

