-- ==== Sys2Proof/Machine/Asm.lean ====
section
/-! DEFINITION. The meanings of unit ASM (41_assembler.md, 70_reset_and_hazards.md R260): on the hardware's
state alone, with the capacity as an argument (10_state.md R27), and then in a run. -/

namespace Sys2Proof.Machine

/-! ### The effects of the arms on the hardware -/

/-- ASM.SOF (R131): the counters are cleared, the buffer's bytes stay (log 11). -/
def armSof (a : AsmState) : StepAnswer := quietStep ⟨stLengthHigh, 0#16, 0#16, 0#16⟩ a

/-- ASM.SKIP (R132). -/
def armSkip (a : AsmState) : StepAnswer := quietStep a.regs a

/-- ASM.LENH (R133): `len[15:8] = b`, `len[7:0] = 0`. -/
def armLenh (b : Byte) (a : AsmState) : StepAnswer :=
  quietStep { a.regs with st := stLengthLow, len := be16 b 0#8 } a

/-- ASM.LENL (R134). -/
def armLenl (b : Byte) (a : AsmState) : StepAnswer :=
  quietStep { a.regs with st := stPayload, len := declaredLength a.regs b, rem := declaredLength a.regs b } a

/-- ASM.LENL.OVF (R135). -/
def armLenlOvf (a : AsmState) : StepAnswer := raiseInvalid a

/-- ASM.PAY (R136): `buf[wr] <- b`, `wr + 1`, `rem - 1`; nothing where the store would be outside the
buffer. -/
def armPay (max : Half) (b : Byte) (a : AsmState) : Option StepAnswer :=
  (bufWrite max a.buf a.regs.wr.toNat b).map fun m =>
    quietStep { a.regs with wr := a.regs.wr + 1#16, rem := a.regs.rem - 1#16 } (a.withBuf m)

/-- ASM.CK (R137): the frame is emitted whatever `b` is, and the registers are those of reset. The
buffer's bytes stay (log 11). -/
def armCk (b : Byte) (a : AsmState) : StepAnswer :=
  ⟨a.withRegs readyRegs, .complete, some (emitted ⟨bufRead a.buf a.regs.len.toNat, b⟩)⟩

/-- ASM.BADST (R138). -/
def armBadst (a : AsmState) : StepAnswer := raiseInvalid a

/-! ### The step, the chunk and the reset of the hardware -/

/-- `ASM.STEP` (R130): the byte takes the selected arm. -/
def asmStep (max : Half) (b : Byte) (a : AsmState) : Option StepAnswer :=
  match armOf max a.regs b with
  | .badst => some (armBadst a)
  | .sof => some (armSof a)
  | .skip => some (armSkip a)
  | .lenh => some (armLenh b a)
  | .lenl => some (armLenl b a)
  | .lenlOvf => some (armLenlOvf a)
  | .pay => armPay max b a
  | .ck => some (armCk b a)

/-- `ASM.FEED` (R139): the fold of `ASM.STEP` over a chunk, with the frames the steps emit. -/
def asmFeed (max : Half) : List Byte → AsmState → Option (List Emitted × AsmState)
  | [], a => some ([], a)
  | b :: rest, a =>
    match asmStep max b a with
    | none => none
    | some ans => (asmFeed max rest ans.asm).map fun r => (ans.frame.toList ++ r.1, r.2)

/-- `ASM.RESET` (R260): the buffer is not changed, no frame, `transient` none. -/
def asmReset (a : AsmState) : StepAnswer := quietStep readyRegs a

/-! ### The arms as table rows of a run -/

/-- A step of ASM in a run; a store outside the buffer, which gives no answer, faults (log 13). -/
def report (ans : Option StepAnswer) (s : State) : Host.Outcome State Fault Refusal :=
  match ans with
  | none => .fault .bufferCapacityExceeded
  | some r => .next (s.afterStep r)

/-- The arm that the byte `b` takes in `s` (R130). -/
def armAt (b : Byte) (s : State) : AsmArm := armOf s.cfg.maxPayload s.regs b

/-- A row runs where the table selects it for the byte `b` (30_encoding.md R102; log 12). -/
def asRow (arm : AsmArm) (b : Byte) (effect : Option StepAnswer) (s : State) :
    Host.Outcome State Fault Refusal :=
  if armAt b s = arm then report effect s else .refused (.rowNotSelected (armInstr b arm))

/-- ASM.BADST (R138). -/
def execAsmBadst (b : Byte) (s : State) : Host.Outcome State Fault Refusal :=
  asRow .badst b (armBadst s.toAsmState) s

/-- ASM.SOF (R131). -/
def execAsmSof (s : State) : Host.Outcome State Fault Refusal :=
  asRow .sof 0x7E#8 (armSof s.toAsmState) s

/-- ASM.SKIP (R132). -/
def execAsmSkip (b : Byte) (s : State) : Host.Outcome State Fault Refusal :=
  asRow .skip b (armSkip s.toAsmState) s

/-- ASM.LENH (R133). -/
def execAsmLenh (b : Byte) (s : State) : Host.Outcome State Fault Refusal :=
  asRow .lenh b (armLenh b s.toAsmState) s

/-- ASM.LENL (R134). -/
def execAsmLenl (b : Byte) (s : State) : Host.Outcome State Fault Refusal :=
  asRow .lenl b (armLenl b s.toAsmState) s

/-- ASM.LENL.OVF (R135). -/
def execAsmLenlOvf (b : Byte) (s : State) : Host.Outcome State Fault Refusal :=
  asRow .lenlOvf b (armLenlOvf s.toAsmState) s

/-- ASM.PAY (R136). -/
def execAsmPay (b : Byte) (s : State) : Host.Outcome State Fault Refusal :=
  asRow .pay b (armPay s.cfg.maxPayload b s.toAsmState) s

/-- ASM.CK (R137). -/
def execAsmCk (b : Byte) (s : State) : Host.Outcome State Fault Refusal :=
  asRow .ck b (armCk b s.toAsmState) s

/-! ### The operations called by name in a run -/

/-- ASM.STEP (R130). -/
def execAsmStep (b : Byte) (s : State) : Host.Outcome State Fault Refusal :=
  report (asmStep s.cfg.maxPayload b s.toAsmState) s

/-- ASM.FEED (R139). -/
def execAsmFeed (chunk : List Byte) (s : State) : Host.Outcome State Fault Refusal :=
  match asmFeed s.cfg.maxPayload chunk s.toAsmState with
  | none => .fault .bufferCapacityExceeded
  | some (frames, a) => .next ((s.withAsm a).withOut (.feed frames))

/-- ASM.RESET (R260): the configuration is not changed. -/
def execAsmReset (s : State) : Host.Outcome State Fault Refusal :=
  report (asmReset s.toAsmState) s

end Sys2Proof.Machine
end

