-- ==== Sys2Proof/Machine/Bld.lean ====
section
/-! DEFINITION. The meanings of unit BLD (44_builder.md). -/

namespace Sys2Proof.Machine

/-- `frame[3..18]`: the sixteen bytes the checksum covers (R210, 30_encoding.md R92). -/
def buildPayload (dest : RemoteAddress) (pin : BitVec 3) (level : Bool) : Vector Byte 16 :=
  #v[0x17#8, 0x00#8] ++ dest ++ #v[0x02#8, 0x44#8, pinDigit pin, levelParam level]

/-- The 20 bytes of `BLD.BUILD` for a legal pin (R210). -/
def buildBytes (dest : RemoteAddress) (pin : BitVec 3) (level : Bool) : Vector Byte 20 :=
  #v[0x7E#8, 0x00#8, 0x10#8] ++ buildPayload dest pin level ++
    #v[checksum (buildPayload dest pin level).toList]

/-- `BLD.BUILD` (R210): the pin test first (R212), then the frame. -/
def build (dest : RemoteAddress) (pin : BitVec 3) (level : Bool) : BuildResult :=
  if pin.toNat < 4 then .invalidArgument else .bytes (buildBytes dest pin level)

/-- BLD.BUILD.D4.HIGH (R210). -/
def execBldD4High (dest : RemoteAddress) (s : State) : Host.Outcome State Fault Refusal :=
  answer (.bld (build dest 4#3 true)) s

/-- BLD.BUILD.D4.LOW (R210). -/
def execBldD4Low (dest : RemoteAddress) (s : State) : Host.Outcome State Fault Refusal :=
  answer (.bld (build dest 4#3 false)) s

/-- BLD.BUILD.D5.HIGH (R210). -/
def execBldD5High (dest : RemoteAddress) (s : State) : Host.Outcome State Fault Refusal :=
  answer (.bld (build dest 5#3 true)) s

/-- BLD.BUILD.D5.LOW (R210). -/
def execBldD5Low (dest : RemoteAddress) (s : State) : Host.Outcome State Fault Refusal :=
  answer (.bld (build dest 5#3 false)) s

/-- BLD.BUILD.D6.HIGH (R210). -/
def execBldD6High (dest : RemoteAddress) (s : State) : Host.Outcome State Fault Refusal :=
  answer (.bld (build dest 6#3 true)) s

/-- BLD.BUILD.D6.LOW (R210). -/
def execBldD6Low (dest : RemoteAddress) (s : State) : Host.Outcome State Fault Refusal :=
  answer (.bld (build dest 6#3 false)) s

/-- BLD.BUILD.D7.HIGH (R210). -/
def execBldD7High (dest : RemoteAddress) (s : State) : Host.Outcome State Fault Refusal :=
  answer (.bld (build dest 7#3 true)) s

/-- BLD.BUILD.D7.LOW (R210). -/
def execBldD7Low (dest : RemoteAddress) (s : State) : Host.Outcome State Fault Refusal :=
  answer (.bld (build dest 7#3 false)) s

/-- BLD.BUILD.ERR (R212): `pin` 0 to 3, `pin[2] = 0`. -/
def execBldErr (pin : BitVec 2) (level : Bool) (dest : RemoteAddress) (s : State) :
    Host.Outcome State Fault Refusal :=
  answer (.bld (build dest (pin.setWidth 3) level)) s

end Sys2Proof.Machine
end

