-- ==== Sys2Proof/Machine/Cks.lean ====
section
/-! DEFINITION. The meanings of unit CKS (40_checksum.md). -/

namespace Sys2Proof.Machine

/-- CKS.COMPUTE (R120). -/
def execCksCompute (bytes : List Byte) (s : State) : Host.Outcome State Fault Refusal :=
  answer (.cks (checksum bytes)) s

/-- CKS.VERIFY (R121). -/
def execCksVerify (bytes : List Byte) (claimed : Byte) (s : State) : Host.Outcome State Fault Refusal :=
  answer (.verify (verifies bytes claimed)) s

end Sys2Proof.Machine
end

