-- ==== Sys2Proof/Machine/Cnv.lean ====
section
/-! DEFINITION. The meanings of unit CNV (43_scaling.md). -/

namespace Sys2Proof.Machine

/-- `CNV.PCT` of a present value (R191, R192). -/
def percent (ties : RoundTies) (raw : Half) : BitVec 7 :=
  BitVec.ofNat 7 (clamp (roundDiv ties (lowTen raw * 120) 1200) 0 100)

/-- `CNV.TEMP` of a present value under `trunc_int` (R195). -/
def tempTrunc (raw : Half) : TempResult :=
  let mv := lowTen raw * 1200 / 1024
  { mv := some (BitVec.ofNat 11 mv)
    degCx10 := BitVec.ofNat 11 mv
    degFx10 := BitVec.ofNat 12 ((9 * mv + 1602) / 5) }

/-- `CNV.TEMP` of a present value under `real`: both results from unrounded intermediates, and no
integer `mv` (R197). -/
def tempReal (ties : RoundTies) (raw : Half) : TempResult :=
  { mv := none
    degCx10 := BitVec.ofNat 11 (roundDiv ties (75 * lowTen raw) 64)
    degFx10 := BitVec.ofNat 12 (roundDiv ties (135 * lowTen raw) 64 + 320) }

/-- `CNV.TEMP` of a present value, by `CNV_TEMP_MODE` (R195, R197). -/
def temperature (cfg : Params) (raw : Half) : TempResult :=
  match cfg.tempMode with
  | .truncInt => tempTrunc raw
  | .real => tempReal cfg.roundTies raw

/-- CNV.PCT (R191); of NotAvailable it is NotAvailable (R190). -/
def execCnvPct (raw : Option Half) (s : State) : Host.Outcome State Fault Refusal :=
  answer (.pct (raw.map (percent s.cfg.roundTies))) s

/-- CNV.TEMP (R195); of NotAvailable it is NotAvailable (R190). -/
def execCnvTemp (raw : Option Half) (s : State) : Host.Outcome State Fault Refusal :=
  answer (.temp (raw.map (temperature s.cfg))) s

end Sys2Proof.Machine
end

