-- ==== Sys2Proof/Machine/Dec.lean ====
section
/-! DEFINITION. The meanings of unit DEC (42_io_decoder.md). The type test (R161) stands apart from the
field extraction, as R172 asks. -/

namespace Sys2Proof.Machine

/-- One turn of the channel loop of R160: the channel's value, or NotAvailable, and the next offset. -/
def analogTurn (p : List Byte) (mask : Byte) (acc : Vector (Option Half) 8 × Nat) (ch : Fin 8) :
    Vector (Option Half) 8 × Nat :=
  if mask.getLsbD ch then (acc.1.set ch (some (payloadHalf p acc.2)), acc.2 + 2)
  else (acc.1.set ch none, acc.2)

/-- The eight channels, in ascending order from offset `off` (R168). -/
def analogChannels (p : List Byte) (mask : Byte) (off : Nat) : Vector (Option Half) 8 :=
  ((List.finRange 8).foldl (analogTurn p mask) (Vector.replicate 8 none, off)).1

/-- The end of `DEC.DECODE` (R160, R168): the analog length test, then the sample. -/
def decodeAnalog (p : List Byte) (digitalValues : Half) (off : Nat) : DecodeResult :=
  if p.length < off + 2 * popcount (payloadByte p 15) then .malformed
  else .ioSample
    { digitalMask := payloadHalf p 13
      digitalValues := digitalValues
      analogMask := payloadByte p 15
      analog := analogChannels p (payloadByte p 15) off }
    (sourceAddress p)

/-- `DEC.DECODE` of a type-`0x92` payload (R160, R162 to R169). -/
def decodeIoSample (p : List Byte) : DecodeResult :=
  if p.length < 16 then .malformed
  else if payloadHalf p 13 != 0#16 then
    if p.length < 18 then .malformed else decodeAnalog p (payloadHalf p 16) 18
  else decodeAnalog p 0#16 16

/-- DEC.DECODE.IO (R160): the entry of the table for `0x92`; run on another frame it is not the
selected row (log 12). -/
def execDecIo (f : Frame) (s : State) : Host.Outcome State Fault Refusal :=
  if f.isIo then answer (.dec (decodeIoSample f.payload)) s else .refused (.rowNotSelected (.decIo f))

/-- DEC.DECODE.NA (R161): the default of the table; run on a type-`0x92` frame it is not the selected
row (log 12). -/
def execDecNa (f : Frame) (s : State) : Host.Outcome State Fault Refusal :=
  if f.isIo then .refused (.rowNotSelected (.decNa f)) else answer (.dec .notApplicable) s

end Sys2Proof.Machine
end

