-- ==== Sys2Proof/Machine/Dispatch.lean ====
section
/-! DEFINITION. The meaning of every instruction: one arm per row of spec/opcode_table.json. -/

namespace Sys2Proof.Machine

def exec (i : Instr) (s : State) : Host.Outcome State Fault Refusal :=
  match i with
  | .asmBadst b => Sys2Proof.Machine.execAsmBadst b s
  | .asmSof => Sys2Proof.Machine.execAsmSof s
  | .asmSkip b => Sys2Proof.Machine.execAsmSkip b s
  | .asmLenh b => Sys2Proof.Machine.execAsmLenh b s
  | .asmLenl b => Sys2Proof.Machine.execAsmLenl b s
  | .asmLenlOvf b => Sys2Proof.Machine.execAsmLenlOvf b s
  | .asmPay b => Sys2Proof.Machine.execAsmPay b s
  | .asmCk b => Sys2Proof.Machine.execAsmCk b s
  | .decIo f => Sys2Proof.Machine.execDecIo f s
  | .decNa f => Sys2Proof.Machine.execDecNa f s
  | .bldD4High dest => Sys2Proof.Machine.execBldD4High dest s
  | .bldD4Low dest => Sys2Proof.Machine.execBldD4Low dest s
  | .bldD5High dest => Sys2Proof.Machine.execBldD5High dest s
  | .bldD5Low dest => Sys2Proof.Machine.execBldD5Low dest s
  | .bldD6High dest => Sys2Proof.Machine.execBldD6High dest s
  | .bldD6Low dest => Sys2Proof.Machine.execBldD6Low dest s
  | .bldD7High dest => Sys2Proof.Machine.execBldD7High dest s
  | .bldD7Low dest => Sys2Proof.Machine.execBldD7Low dest s
  | .bldErr pin level dest => Sys2Proof.Machine.execBldErr pin level dest s
  | .cksCompute bytes => Sys2Proof.Machine.execCksCompute bytes s
  | .cksVerify bytes claimed => Sys2Proof.Machine.execCksVerify bytes claimed s
  | .asmStep b => Sys2Proof.Machine.execAsmStep b s
  | .asmFeed chunk => Sys2Proof.Machine.execAsmFeed chunk s
  | .asmReset => Sys2Proof.Machine.execAsmReset s
  | .cnvPct raw => Sys2Proof.Machine.execCnvPct raw s
  | .cnvTemp raw => Sys2Proof.Machine.execCnvTemp raw s

end Sys2Proof.Machine
end

