-- ==== Sys2Proof/Machine/Step.lean ====
section
/-! DEFINITION. One step of a run: the next request is decoded and run (70_reset_and_hazards.md R272). -/

namespace Sys2Proof.Machine

/-- The instruction a request record selects in `s`. -/
def State.decodes (s : State) (record : List Byte) : Except Reject Instr :=
  decode s.cfg.maxPayload s.regs record

/-- One operation of the run. The request is taken off the list, decoded in the registers it finds and
run. With no request the block is idle: it holds its state, and nothing was answered (60_exceptions.md
R247; log 8). -/
def step (s : State) : Host.Outcome State Fault Refusal :=
  match s.requests with
  | [] => .next (s.withOut .idle)
  | record :: rest =>
    match s.decodes record with
    | .ok i => exec i (s.withRequests rest)
    | .error why => .refused (.badRequest why)

/-- `s` with the request of a selector word of the table next, and the registers that its selector and
its row's condition speak of; everything else as it is (log 16). -/
def State.withFetchWord (s : State) (nbits w : Nat) : State :=
  match tableRequest nbits w with
  | none => s
  | some (r, record) => (s.withAsm (s.toAsmState.withRegs r)).withRequests (record :: s.requests)

end Sys2Proof.Machine
end

