-- ==== Sys2Proof/Safety.lean ====
section
/-! DEFINITION. The terms claims are stated in: the invariant of a block, states that differ in dead
bytes only, the wire format (30_encoding.md R80), the length a payload needs (R91), a run and what it
answers (70_reset_and_hazards.md R272). -/

namespace Sys2Proof.Machine

/-- The invariant: the registers are well-formed (10_state.md R26), the buffer is canonical and lies
inside its capacity (20_memory.md R51), and every payload byte counted by `wr` was written (R24). -/
structure State.Inv (s : State) : Prop where
  regs : wfRegs s.cfg.maxPayload s.regs = true
  canonical : s.buf.wf
  inside : ∀ c ∈ s.buf, c.1 < s.cfg.maxPayload.toNat
  written : ∀ a, a < s.regs.wr.toNat → (s.buf.read a).isSome = true

/-- Two states that differ in dead bytes of the buffer only (93_implementation_defined.md U3): the bytes
that `wr` counts read alike, and everything else is equal. -/
structure State.SameButDead (s t : State) : Prop where
  regs : s.regs = t.regs
  cfg : s.cfg = t.cfg
  requests : s.requests = t.requests
  out : s.out = t.out
  live : ∀ a, a < s.regs.wr.toNat → s.buf.read a = t.buf.read a

/-- Two outcomes are of one kind, with the same reason where they stop and states that differ in dead
bytes only where they go on. -/
def sameButDead : Host.Outcome State Fault Refusal → Host.Outcome State Fault Refusal → Prop
  | .next s, .next t => s.SameButDead t
  | .fault r, .fault q => r = q
  | .refused r, .refused q => r = q
  | _, _ => False

/-- A frame on the wire: `7E LL LL [payload...] CK` (30_encoding.md R80). -/
def wireFrame (f : Frame) : List Byte :=
  0x7E#8 :: hiByte f.length :: loByte f.length :: (f.payload ++ [f.checksum])

/-- `need` (30_encoding.md R91), of a payload that holds its masks. -/
def neededLength (p : List Byte) : Nat :=
  16 + (if payloadHalf p 13 = 0#16 then 0 else 2) + 2 * popcount (payloadByte p 15)

/-- The set bits of `m` below bit `ch`: the place `k` of channel `ch` among the analog values (R89). -/
def bitsBelow (m : Byte) (ch : Nat) : Nat := (List.range ch).countP (fun i => m.getLsbD i)

/-- `k` operations of a run: what each answered and the state after the last; nothing if one stops. -/
def run : Nat → State → Option (List Output × State)
  | 0, s => some ([], s)
  | k + 1, s =>
    match step s with
    | .next t => (run k t).map (fun r => (t.out :: r.1, r.2))
    | _ => none

/-- The bytes of a chunk as requests, one on the port `in_data` for each. -/
def byteRequests (chunk : List Byte) : List (List Byte) := chunk.map (fun b => [Port.code .inData, b])

end Sys2Proof.Machine
end

