-- ==== Sys2Proof/Certificates/Slice0/Obligations.lean ====
section
/-! DEFINITION. The statements about the frame block that the provers settle. -/

open Sys2Proof Sys2Proof.Machine

/-- The register values of R39 at reset, and that they satisfy WF. -/
def Obligations.ResetIsReady : Prop :=
  State.reset.regs.st = 0#3 ∧ State.reset.regs.len = 0#16 ∧ State.reset.regs.rem = 0#16 ∧
  State.reset.regs.wr = 0#16 ∧ portState State.reset = 0#3 ∧
  ∀ max : Half, wfRegs max State.reset.regs = true

/-- The invariant of `StepKeepsTheInvariant` holds at reset (R39, R143); that no byte of the buffer is listed at reset is the model's choice, log 9. -/
def Obligations.ResetMeetsTheInvariant : Prop :=
  State.reset.Inv

/-- R143 "If `WF` holds before a step it holds after it", with the consequences it draws for the buffer (R51, R24). -/
def Obligations.StepKeepsTheInvariant : Prop :=
  ∀ s t : State, s.Inv → step s = .next t → t.Inv

/-- A run is a sequence of operations (R272); how the model presents them to step is its own choice, log 5 and 6. -/
def Obligations.StepRunsTheDecodedInstruction : Prop :=
  ∀ (s : State) (record : List Byte) (rest : List (List Byte)) (i : Instr),
    s.requests = record :: rest → decode s.cfg.maxPayload s.regs record = .ok i →
    step s = exec i { s with requests := rest }

/-- An idle block holds its state (R247, R145); idling as a step and the refusal of records are the model's choice, log 8 and 6. -/
def Obligations.StepWithoutInstruction : Prop :=
  (∀ s : State, s.requests = [] → step s = .next { s with out := .idle }) ∧
  (∀ (s : State) (record : List Byte) (rest : List (List Byte)) (why : Reject),
    s.requests = record :: rest → decode s.cfg.maxPayload s.regs record = .error why →
    step s = .refused (.badRequest why))

/-- U19 "Nothing in this hardware is `stuck`", with R130 "The step is total"; the rejection of a record is the model's, log 6. -/
def Obligations.StepStopsOnlyOnABadRecord : Prop :=
  ∀ s : State, (∃ t, step s = .next t) ∨
    (∃ record rest why, s.requests = record :: rest ∧
      decode s.cfg.maxPayload s.regs record = .error why ∧ step s = .refused (.badRequest why))

/-- A sanity statement over a few words of spec/opcode_table.json (R86, R87, R93, R102); the bytes beside a selector are zeros, log 16. -/
def Obligations.SelectorWordsDecodeToTheirRows : Prop :=
  decodeTableWord 16 0x07E = some .asmSof ∧ decodeTableWord 16 0x041 = some (.asmSkip 0x41#8) ∧
  decodeTableWord 16 0x112 = some (.asmLenh 0x12#8) ∧ decodeTableWord 16 0x200 = some (.asmLenl 0x00#8) ∧
  decodeTableWord 16 0x300 = some (.asmCk 0x00#8) ∧ decodeTableWord 16 0x47E = some (.asmBadst 0x7E#8) ∧
  (let dest : RemoteAddress := Vector.replicate 10 0#8
   decodeTableWord 8 0x9 = some (.bldD4High dest) ∧ decodeTableWord 8 0x8 = some (.bldD4Low dest) ∧
   decodeTableWord 8 0xB = some (.bldD5High dest) ∧ decodeTableWord 8 0xA = some (.bldD5Low dest) ∧
   decodeTableWord 8 0xD = some (.bldD6High dest) ∧ decodeTableWord 8 0xC = some (.bldD6Low dest) ∧
   decodeTableWord 8 0xF = some (.bldD7High dest) ∧ decodeTableWord 8 0xE = some (.bldD7Low dest) ∧
   decodeTableWord 8 0x5 = some (.bldErr 2#2 true dest)) ∧
  decodeTableWord 8 0x92 = some (.decIo ⟨0x92#8 :: List.replicate 15 0#8, 0#8⟩) ∧
  decodeTableWord 8 0x17 = some (.decNa ⟨0x17#8 :: List.replicate 15 0#8, 0#8⟩)

/-- No selector bit (R86, R87, R93) and no operand is dropped; the record format is the model's, log 6. -/
def Obligations.DecodeOfEncodeIsTheInstruction : Prop :=
  ∀ (max : Half) (r : AsmRegs) (i : Instr), WellFormed i = true → rowSelected max r i = true →
    decode max r (encode i) = .ok i

/-- The converse of `DecodeOfEncodeIsTheInstruction`; the record format is the model's, log 6. -/
def Obligations.DecodeGivesOnlySelectedRows : Prop :=
  ∀ (max : Half) (r : AsmRegs) (record : List Byte) (i : Instr), decode max r record = .ok i →
    WellFormed i = true ∧ rowSelected max r i = true ∧ encode i = record

/-- R86 "exactly one arm applies to every (state, byte) pair", R102 "A row matches when `(sel AND mask) = match` and its `cond`, if any, holds". -/
def Obligations.ExactlyOneAsmRowMatches : Prop :=
  ∀ (max : Half) (r : AsmRegs) (b : Byte),
    (∀ row ∈ asmTable, row.hits max r b = true ↔ row.arm = armOf max r b) ∧
    (∃ row ∈ asmTable, row.hits max r b = true ∧ ∀ other ∈ asmTable, other.hits max r b = true → other = row)

/-- R131. That every byte of the buffer stays is the model's choice, log 11: R131 says only that they "need not be cleared". -/
def Obligations.SofStartsAFrame : Prop :=
  ∀ s : State, wfRegs s.cfg.maxPayload s.regs = true → s.regs.st = stReady →
    exec .asmSof s = .next
      { s with regs := ⟨stLengthHigh, 0#16, 0#16, 0#16⟩, out := .step .none none } ∧
    exec (.asmStep 0x7E#8) s = .next
      { s with regs := ⟨stLengthHigh, 0#16, 0#16, 0#16⟩, out := .step .none none }

/-- R132. -/
def Obligations.SkipDiscardsTheByte : Prop :=
  ∀ (s : State) (b : Byte), wfRegs s.cfg.maxPayload s.regs = true → s.regs.st = stReady → b ≠ 0x7E#8 →
    exec (.asmSkip b) s = .next { s with out := .step .none none } ∧
    exec (.asmStep b) s = .next { s with out := .step .none none }

/-- R133. That the high byte alone is not checked against MAX_PAYLOAD is the spec's own decision D7, log 20. -/
def Obligations.LenhTakesTheHighByte : Prop :=
  ∀ (s : State) (b : Byte), wfRegs s.cfg.maxPayload s.regs = true → s.regs.st = stLengthHigh →
    exec (.asmLenh b) s = .next { s with
      regs := { s.regs with st := stLengthLow, len := BitVec.ofNat 16 (256 * b.toNat) }
      out := .step .none none } ∧
    exec (.asmStep b) s = exec (.asmLenh b) s

/-- R134, with its corner case: after L = 0 the next byte takes ASM.CK. -/
def Obligations.LenlTakesTheLowByte : Prop :=
  ∀ (s : State) (b : Byte), wfRegs s.cfg.maxPayload s.regs = true → s.regs.st = stLengthLow →
    256 * (s.regs.len.toNat / 256) + b.toNat ≤ s.cfg.maxPayload.toNat →
    ∃ l : Half, l.toNat = 256 * (s.regs.len.toNat / 256) + b.toNat ∧
      exec (.asmLenl b) s = .next { s with
        regs := ⟨stPayload, l, l, 0#16⟩, out := .step .none none } ∧
      exec (.asmStep b) s = exec (.asmLenl b) s ∧
      (l = 0#16 → ∀ (ck : Byte), armOf s.cfg.maxPayload ⟨stPayload, l, l, 0#16⟩ ck = .ck)

/-- R135, the Invalid path of R236. The refusal at the low length byte is the spec's own decision D7, log 20; that the buffer, dead after it, stays is the model's choice, log 11. -/
def Obligations.LenlOvfRefusesTheLength : Prop :=
  (∀ (s : State) (b : Byte), wfRegs s.cfg.maxPayload s.regs = true → s.regs.st = stLengthLow →
    s.cfg.maxPayload.toNat < 256 * (s.regs.len.toNat / 256) + b.toNat →
    exec (.asmLenlOvf b) s = .next
      { s with regs := ⟨stReady, 0#16, 0#16, 0#16⟩, out := .step .invalid none } ∧
    exec (.asmStep b) s = exec (.asmLenlOvf b) s) ∧
  (∀ (r : AsmRegs) (b : Byte), armOf 0xFFFF#16 r b ≠ .lenlOvf)

/-- R136. -/
def Obligations.PayStoresTheByte : Prop :=
  ∀ (s : State) (b : Byte), wfRegs s.cfg.maxPayload s.regs = true → s.regs.st = stPayload → s.regs.rem ≠ 0#16 →
    ∃ t, exec (.asmPay b) s = .next t ∧ exec (.asmStep b) s = .next t ∧
      s.regs.wr.toNat < s.cfg.maxPayload.toNat ∧ t.buf.read s.regs.wr.toNat = some b ∧
      (∀ a, a ≠ s.regs.wr.toNat → t.buf.read a = s.buf.read a) ∧
      t.regs.wr.toNat = s.regs.wr.toNat + 1 ∧ t.regs.rem.toNat + 1 = s.regs.rem.toNat ∧
      t.regs.st = stPayload ∧ t.regs.len = s.regs.len ∧
      t.cfg = s.cfg ∧ t.requests = s.requests ∧ t.out = .step .none none

/-- R137 with the flag of R141; the registers after it are the spec's own decision D10, log 20. That the buffer stays is the model's choice, log 11, in accord with R25 "Written by: `ASM.PAY`". A byte of the payload that nothing has written is a free value (log 10); no state that meets the invariant has one. -/
def Obligations.CkEmitsTheFrame : Prop :=
  ∀ (s : State) (b : Byte), wfRegs s.cfg.maxPayload s.regs = true → s.regs.st = stPayload → s.regs.rem = 0#16 →
    ∃ payload : List Byte, payload.length = s.regs.len.toNat ∧
      (⟨payload, b⟩ : Frame).length = s.regs.len ∧
      (∀ a v, a < s.regs.len.toNat → s.buf.read a = some v → payload[a]? = some v) ∧
      exec (.asmCk b) s = .next { s with
        regs := ⟨stReady, 0#16, 0#16, 0#16⟩
        out := .step .complete (some ⟨⟨payload, b⟩, decide (checksum payload = b)⟩) } ∧
      exec (.asmStep b) s = exec (.asmCk b) s

/-- R138 with the path of R236; that the byte is consumed is the spec's own decision D11, log 20. That the buffer stays is the model's choice, log 11: R236 says only "buf contents become dead". -/
def Obligations.BadstTakesTheInvalidPath : Prop :=
  ∀ (s : State) (b : Byte), wfRegs s.cfg.maxPayload s.regs = false →
    exec (.asmBadst b) s = .next
      { s with regs := ⟨stReady, 0#16, 0#16, 0#16⟩, out := .step .invalid none } ∧
    exec (.asmStep b) s = .next
      { s with regs := ⟨stReady, 0#16, 0#16, 0#16⟩, out := .step .invalid none }

/-- R231 and R236: the two causes of Invalid and what taking it changes. The oversized length is refused at its low byte by the spec's own decision D7, log 20; that the buffer stays is the model's choice, log 11. -/
def Obligations.InvalidPathSavesNothing : Prop :=
  ∀ (s : State) (b : Byte), ∃ t tr fr, exec (.asmStep b) s = .next t ∧ t.out = .step tr fr ∧
    (tr = .invalid ↔ wfRegs s.cfg.maxPayload s.regs = false ∨
      (s.regs.st = stLengthLow ∧
        s.cfg.maxPayload.toNat < 256 * (s.regs.len.toNat / 256) + b.toNat)) ∧
    (tr = .invalid → t = { s with
      regs := ⟨stReady, 0#16, 0#16, 0#16⟩, out := .step .invalid none })

/-- R130 "Exactly one arm is taken", "The step is total and deterministic". -/
def Obligations.StepIsTheSelectedArm : Prop :=
  ∀ (s : State) (b : Byte), ∃ t tr fr, exec (.asmStep b) s = .next t ∧
    exec (armInstr b (armOf s.cfg.maxPayload s.regs b)) s = .next t ∧
    t.cfg = s.cfg ∧ t.requests = s.requests ∧ t.out = .step tr fr

/-- R142, the table. -/
def Obligations.TransitionTable : Prop :=
  ∀ (s : State) (b : Byte), ∃ t tr fr, exec (.asmStep b) s = .next t ∧ t.out = .step tr fr ∧
    (t.regs.st, tr, fr.isSome) =
      (if wfRegs s.cfg.maxPayload s.regs = false then (stReady, .invalid, false)
       else if s.regs.st = stReady then
         (if b = 0x7E#8 then (stLengthHigh, .none, false) else (stReady, .none, false))
       else if s.regs.st = stLengthHigh then (stLengthLow, .none, false)
       else if s.regs.st = stLengthLow then
         (if 256 * (s.regs.len.toNat / 256) + b.toNat ≤ s.cfg.maxPayload.toNat
          then (stPayload, .none, false) else (stReady, .invalid, false))
       else if s.regs.rem ≠ 0#16 then (stPayload, .none, false)
       else (stReady, .complete, true))

/-- A row matches only where its selector and cond hold (R102); refusing it elsewhere is the model's choice, log 12. No request decodes to such a row (`DecodeGivesOnlySelectedRows`). -/
def Obligations.UnselectedRowsAreRefused : Prop :=
  (∀ (i : Instr) (s : State), rowSelected s.cfg.maxPayload s.regs i = false →
    exec i s = .refused (.rowNotSelected i)) ∧
  (∀ (f : Frame) (s : State), f.payload.head? ≠ some 0x92#8 →
    exec (.decIo f) s = .refused (.rowNotSelected (.decIo f))) ∧
  (∀ (f : Frame) (s : State), f.payload.head? = some 0x92#8 →
    exec (.decNa f) s = .refused (.rowNotSelected (.decNa f)))

/-- R25 "Written by: `ASM.PAY`", R51 and R143 "`buf` is never written outside 0 to `MAX_PAYLOAD - 1`", R260. That the dead bytes read as before after ASM.SOF, ASM.CK and the Invalid path, where U3 leaves them free, is the model's choice, log 11. -/
def Obligations.OnlyPayWritesTheBuffer : Prop :=
  (∀ (s t : State) (b : Byte), exec (.asmStep b) s = .next t →
    (∀ a, (armOf s.cfg.maxPayload s.regs b = .pay ∧ a = s.regs.wr.toNat) ∨
      t.buf.read a = s.buf.read a) ∧ t.cfg = s.cfg ∧ t.requests = s.requests) ∧
  (∀ (s t : State) (chunk : List Byte), exec (.asmFeed chunk) s = .next t →
    (∀ a, s.cfg.maxPayload.toNat ≤ a → t.buf.read a = s.buf.read a) ∧
    t.cfg = s.cfg ∧ t.requests = s.requests) ∧
  (∀ (s t : State), exec .asmReset s = .next t →
    (∀ a, t.buf.read a = s.buf.read a) ∧ t.cfg = s.cfg ∧ t.requests = s.requests)

/-- R260. -/
def Obligations.ResetClearsTheRegisters : Prop :=
  ∀ s : State, exec .asmReset s = .next
    { s with regs := ⟨stReady, 0#16, 0#16, 0#16⟩, out := .step .none none }

/-- R141 and the first part of R144, in every state that meets the invariant. -/
def Obligations.EmittedFramesAreWhatWasReceived : Prop :=
  ∀ (s t : State) (b : Byte) (tr : Transient) (e : Emitted), s.Inv →
    exec (.asmStep b) s = .next t → t.out = .step tr (some e) →
    tr = .complete ∧ e.frame.length = s.regs.len ∧ e.frame.payload.length = s.regs.len.toNat ∧
    s.regs.len.toNat ≤ s.cfg.maxPayload.toNat ∧ e.frame.checksum = b ∧
    (∀ a, a < s.regs.len.toNat → e.frame.payload[a]? = s.buf.read a) ∧
    (e.ckOk = true ↔ checksum e.frame.payload = b) ∧
    (s.regs.len = 0#16 → (e.ckOk = true ↔ b = 0xFF#8))

/-- U3 "two states that differ only in dead bytes are the same state for every claim"; R25 "every other byte of `buf` is dead". -/
def Obligations.DeadBytesAreNotObservable : Prop :=
  ∀ s t : State, s.SameButDead t → sameButDead (step s) (step t)

/-- R139, the pseudocode and the empty chunk. -/
def Obligations.FeedIsTheFoldOfSteps : Prop :=
  (∀ (s : State) (chunk : List Byte), ∃ t fs, exec (.asmFeed chunk) s = .next t ∧ t.out = .feed fs) ∧
  (∀ s : State, exec (.asmFeed []) s = .next { s with out := .feed [] }) ∧
  (∀ (s t u : State) (b : Byte) (rest : List Byte) (tr : Transient) (fr : Option Emitted)
    (fs : List Emitted), exec (.asmStep b) s = .next t → t.out = .step tr fr →
    exec (.asmFeed rest) t = .next u → u.out = .feed fs →
    exec (.asmFeed (b :: rest)) s = .next { u with out := .feed (fr.toList ++ fs) })

/-- R140 "`ASM.FEED(A ++ B)` returns `ASM.FEED(A) ++ ASM.FEED(B)`". -/
def Obligations.FeedsSplitAtAnyChunkBoundary : Prop :=
  ∀ (s : State) (a b : List Byte), ∃ t u fs gs,
    exec (.asmFeed a) s = .next t ∧ t.out = .feed fs ∧
    exec (.asmFeed b) t = .next u ∧ u.out = .feed gs ∧
    exec (.asmFeed (a ++ b)) s = .next { u with out := .feed (fs ++ gs) }

/-- R139, the bound of its corner cases. -/
def Obligations.FeedEmitsAtMostAFourthMore : Prop :=
  ∀ (s t : State) (chunk : List Byte) (fs : List Emitted), chunk ≠ [] →
    exec (.asmFeed chunk) s = .next t → t.out = .feed fs →
    fs.length ≤ 1 + (chunk.length - 1) / 4

/-- R63, R80, R142 and R144: the path of a well-formed frame, frames in arrival order with no gap; a zero-length frame and data bytes 0x7E (R84) included. -/
def Obligations.WireFramesAreAssembledInOrder : Prop :=
  ∀ (s : State) (frames : List Frame), wfRegs s.cfg.maxPayload s.regs = true → s.regs.st = stReady →
    (∀ f ∈ frames, f.payload.length ≤ s.cfg.maxPayload.toNat) →
    ∃ t, exec (.asmFeed (frames.flatMap wireFrame)) s = .next t ∧
      t.out = .feed (frames.map fun f => ⟨f, decide (checksum f.payload = f.checksum)⟩) ∧
      t.regs = s.regs ∧ t.cfg = s.cfg ∧ t.requests = s.requests

/-- R146. -/
def Obligations.NoiseIsDiscarded : Prop :=
  (∀ (s : State) (chunk : List Byte), wfRegs s.cfg.maxPayload s.regs = true → s.regs.st = stReady →
    (∀ b ∈ chunk, b ≠ 0x7E#8) → exec (.asmFeed chunk) s = .next { s with out := .feed [] }) ∧
  (∃ (s t : State) (chunk : List Byte) (e : Emitted), wfRegs s.cfg.maxPayload s.regs = true ∧ s.regs.st ≠ stReady ∧
    (∀ b ∈ chunk, b ≠ 0x7E#8) ∧ exec (.asmFeed chunk) s = .next t ∧ t.out = .feed [e])

/-- The last paragraph of R147, with R237: the oversize property. -/
def Obligations.OversizeLengthIsSurvived : Prop :=
  ∀ (s : State) (h l : Byte) (noise : List Byte) (f : Frame), wfRegs s.cfg.maxPayload s.regs = true → s.regs.st = stReady →
    s.cfg.maxPayload.toNat < 256 * h.toNat + l.toNat → (∀ b ∈ noise, b ≠ 0x7E#8) →
    f.payload.length ≤ s.cfg.maxPayload.toNat →
    ∃ t, exec (.asmFeed (0x7E#8 :: h :: l :: (noise ++ wireFrame f))) s = .next t ∧
      t.out = .feed [⟨f, decide (checksum f.payload = f.checksum)⟩] ∧ t.regs = s.regs

/-- R36 "`feed(chunk)` is the fold of steps over the bytes of `chunk` and its result is the sequence of frames those steps emit"; the requests are the model's, log 5. -/
def Obligations.RunningBytesIsFeedingThem : Prop :=
  ∀ (s : State) (chunk : List Byte) (later : List (List Byte)),
    s.requests = byteRequests chunk ++ later →
    ∃ outs t u, run chunk.length s = some (outs, t) ∧ exec (.asmFeed chunk) s = .next u ∧
      u.out = .feed (outs.flatMap Output.frames) ∧
      t.regs = u.regs ∧ t.buf = u.buf ∧ t.cfg = u.cfg ∧ t.requests = later

/-- R120. -/
def Obligations.ComputeIsTheComplementOfTheSum : Prop :=
  ∀ (s : State) (bytes : List Byte), ∃ ck : Byte,
    exec (.cksCompute bytes) s = .next { s with out := .cks ck } ∧
    ck.toNat = 255 - (bytes.map BitVec.toNat).sum % 256 ∧
    ck = ~~~(BitVec.ofNat 8 (bytes.map BitVec.toNat).sum) ∧ (bytes = [] → ck = 0xFF#8) ∧
    (∀ other, other.Perm bytes → exec (.cksCompute other) s = exec (.cksCompute bytes) s)

/-- R121. -/
def Obligations.VerifyComparesWithCompute : Prop :=
  ∀ (s : State) (bytes : List Byte) (claimed : Byte), ∃ ok : Bool,
    exec (.cksVerify bytes claimed) s = .next { s with out := .verify ok } ∧
    (ok = true ↔ exec (.cksCompute bytes) s = .next { s with out := .cks claimed }) ∧
    (bytes = [] → (ok = true ↔ claimed = 0xFF#8))

/-- R123, the equivalent form. -/
def Obligations.VerifyBySummingEverything : Prop :=
  ∀ (s : State) (bytes : List Byte) (c : Byte),
    exec (.cksVerify bytes c) s = .next { s with
      out := .verify (decide (((bytes.map BitVec.toNat).sum + c.toNat) % 256 = 0xFF)) }

/-- R124. -/
def Obligations.SingleBitFlipsAreDetected : Prop :=
  (∀ (s : State) (p : List Byte) (c : Byte), exec (.cksCompute p) s = .next { s with out := .cks c } →
    exec (.cksVerify p c) s = .next { s with out := .verify true } ∧
    (∀ (i : Nat) (v : Byte) (k : Nat), p[i]? = some v → k < 8 →
      exec (.cksVerify (p.set i (v ^^^ BitVec.twoPow 8 k)) c) s = .next { s with out := .verify false }) ∧
    (∀ k : Nat, k < 8 →
      exec (.cksVerify p (c ^^^ BitVec.twoPow 8 k)) s = .next { s with out := .verify false }) ∧
    (∀ q : List Byte, q.Perm p → exec (.cksVerify q c) s = .next { s with out := .verify true })) ∧
  (∃ (p : List Byte) (i j : Nat) (v w c : Byte), i ≠ j ∧ p[i]? = some v ∧ p[j]? = some w ∧
    checksum p = c ∧ checksum ((p.set i (v ^^^ 1#8)).set j (w ^^^ 1#8)) = c)

/-- R161. That the empty frame is NotApplicable is the spec's own decision D16, log 20. -/
def Obligations.OtherFramesAreNotApplicable : Prop :=
  (∀ (s : State) (f : Frame), f.payload.head? ≠ some 0x92#8 →
    exec (.decNa f) s = .next { s with out := .dec .notApplicable }) ∧
  (∀ (s : State) (f : Frame), exec (decInstr f) s = .next { s with out := .dec .notApplicable } ↔
    f.payload.head? ≠ some 0x92#8)

/-- R162, R167, R168 and R234 with the length of R91. -/
def Obligations.ShortSampleFramesAreMalformed : Prop :=
  ∀ (s : State) (f : Frame), f.payload.head? = some 0x92#8 →
    (exec (.decIo f) s = .next { s with out := .dec .malformed } ↔
      (f.payload.length < 16 ∨ f.payload.length < neededLength f.payload))

/-- R160, R163, R165 to R168 with the offsets of R89. Bits of digitalValues outside the mask are those of the wire, the spec's decision D18; a claim about a channel reads masked bits only (U1). -/
def Obligations.SampleFieldsAreDecoded : Prop :=
  ∀ (s : State) (f : Frame), f.payload.head? = some 0x92#8 → 16 ≤ f.payload.length →
    neededLength f.payload ≤ f.payload.length →
    ∃ (smp : IoSample) (addr : RemoteAddress),
      exec (.decIo f) s = .next { s with out := .dec (.ioSample smp addr) } ∧
      (let p := fun k => f.payload.getD k 0#8
       let first := if smp.digitalMask = 0#16 then 16 else 18
       smp.digitalMask.toNat = 256 * (p 13).toNat + (p 14).toNat ∧
       smp.digitalValues.toNat =
         (if smp.digitalMask = 0#16 then 0 else 256 * (p 16).toNat + (p 17).toNat) ∧
       smp.analogMask = p 15 ∧
       (∀ ch : Fin 8, smp.analog[ch] =
         if (p 15).getLsbD ch then
           some (BitVec.ofNat 16 (256 * (p (first + 2 * bitsBelow (p 15) ch)).toNat +
             (p (first + 2 * bitsBelow (p 15) ch + 1)).toNat))
         else none) ∧
       (∀ i : Fin 10, addr[i] = p (1 + i)))

/-- R164, R169 and R170. -/
def Obligations.DecodeIgnoresWhatItSkips : Prop :=
  (∀ (s : State) (p q : List Byte) (c d : Byte), p.head? = some 0x92#8 → q.head? = some 0x92#8 →
    p.length = q.length → (∀ k, k ≠ 11 → k ≠ 12 → p[k]? = q[k]?) →
    exec (.decIo ⟨p, c⟩) s = exec (.decIo ⟨q, d⟩) s) ∧
  (∀ (s : State) (p surplus : List Byte) (c d : Byte), p.head? = some 0x92#8 → 16 ≤ p.length →
    neededLength p ≤ p.length →
    exec (.decIo ⟨p ++ surplus, c⟩) s = exec (.decIo ⟨p, d⟩) s) ∧
  (∀ (s : State) (p : List Byte) (c d : Byte), p.head? ≠ some 0x92#8 →
    exec (.decNa ⟨p, c⟩) s = exec (.decNa ⟨p, d⟩) s)

/-- R190, R191, R192. The two settings are the spec's parameter ROUND_TIES, log 3. -/
def Obligations.PercentIsRoundedAndClamped : Prop :=
  ∀ (s : State) (raw : Half), ∃ pct : BitVec 7,
    exec (.cnvPct (some raw)) s = .next { s with out := .pct (some pct) } ∧
    (let v := raw.toNat % 1024
     (s.cfg.roundTies = .halfUp → pct.toNat = min ((v + 5) / 10) 100) ∧
     (s.cfg.roundTies = .halfEven → pct.toNat =
       if v % 10 = 5 ∧ (v / 10) % 2 = 0 then min (v / 10) 100 else min ((v + 5) / 10) 100))

/-- R192. -/
def Obligations.RoundingSettingsDifferOnFiftyValues : Prop :=
  ∀ (s : State) (raw : Half), ∃ up even : BitVec 7,
    exec (.cnvPct (some raw)) { s with cfg := { s.cfg with roundTies := .halfUp } } =
      .next { s with cfg := { s.cfg with roundTies := .halfUp }, out := .pct (some up) } ∧
    exec (.cnvPct (some raw)) { s with cfg := { s.cfg with roundTies := .halfEven } } =
      .next { s with cfg := { s.cfg with roundTies := .halfEven }, out := .pct (some even) } ∧
    (up ≠ even ↔ ∃ j, j < 50 ∧ raw.toNat % 1024 = 20 * j + 5) ∧
    (∀ j, j < 50 → raw.toNat % 1024 = 20 * j + 5 → up.toNat = 2 * j + 1 ∧ even.toNat = 2 * j)

/-- R195 and R196. CNV_TEMP_MODE is the spec's parameter, log 3. -/
def Obligations.TemperatureIsTruncatedMillivolts : Prop :=
  ∀ (s : State) (raw : Half), s.cfg.tempMode = .truncInt →
    ∃ (mv degC : BitVec 11) (degF : BitVec 12),
      exec (.cnvTemp (some raw)) s = .next { s with out := .temp (some ⟨some mv, degC, degF⟩) } ∧
      mv.toNat = raw.toNat % 1024 * 1200 / 1024 ∧ mv.toNat = raw.toNat % 1024 * 75 / 64 ∧
      degC.toNat = mv.toNat ∧ degF.toNat = (9 * mv.toNat + 1602) / 5 ∧
      mv.toNat ≤ 1198 ∧ 320 ≤ degF.toNat ∧ degF.toNat ≤ 2476 ∧
      (∀ other : Half, exec (.cnvTemp (some other)) s = exec (.cnvTemp (some raw)) s →
        other.toNat % 1024 = raw.toNat % 1024)

/-- R197, the reading the spec does not adopt, carried as a setting; the absent mv is its "It has no integer `mv`", log 19. -/
def Obligations.TemperatureInRealMode : Prop :=
  ∀ (s : State) (raw : Half), s.cfg.tempMode = .real →
    ∃ (degC : BitVec 11) (degF : BitVec 12),
      exec (.cnvTemp (some raw)) s = .next { s with out := .temp (some ⟨none, degC, degF⟩) } ∧
      (let v := raw.toNat % 1024
       (v % 64 ≠ 32 ∨ s.cfg.roundTies = .halfUp →
         degC.toNat = (150 * v + 64) / 128 ∧ degF.toNat = (270 * v + 64) / 128 + 320) ∧
       (v % 64 = 32 → s.cfg.roundTies = .halfEven →
         (2 * degC.toNat = 150 * v / 64 - 1 ∨ 2 * degC.toNat = 150 * v / 64 + 1) ∧
         degC.toNat % 2 = 0 ∧
         (2 * (degF.toNat - 320) = 270 * v / 64 - 1 ∨ 2 * (degF.toNat - 320) = 270 * v / 64 + 1) ∧
         degF.toNat % 2 = 0 ∧ 320 ≤ degF.toNat))

/-- R190. -/
def Obligations.ConversionsSeeTenBitsAndPresence : Prop :=
  (∀ (s : State) (raw other : Half), raw.toNat % 1024 = other.toNat % 1024 →
    exec (.cnvPct (some raw)) s = exec (.cnvPct (some other)) s ∧
    exec (.cnvTemp (some raw)) s = exec (.cnvTemp (some other)) s) ∧
  (∀ s : State, exec (.cnvPct none) s = .next { s with out := .pct none } ∧
    exec (.cnvTemp none) s = .next { s with out := .temp none })

/-- R210 with the layout of R92 and the inversion of R95. -/
def Obligations.BuildersAnswerTheTwentyBytes : Prop :=
  ∀ (s : State) (dest : RemoteAddress) (i : Instr) (digit param : Byte),
    (i, digit, param) ∈ [(.bldD4High dest, 0x34#8, 0x04#8), (.bldD4Low dest, 0x34#8, 0x05#8),
      (.bldD5High dest, 0x35#8, 0x04#8), (.bldD5Low dest, 0x35#8, 0x05#8),
      (.bldD6High dest, 0x36#8, 0x04#8), (.bldD6Low dest, 0x36#8, 0x05#8),
      (.bldD7High dest, 0x37#8, 0x04#8), (.bldD7Low dest, 0x37#8, 0x05#8)] →
    ∃ (frame : Vector Byte 20) (ck : Byte),
      exec i s = .next { s with out := .bld (.bytes frame) } ∧
      frame.toList = [0x7E#8, 0x00#8, 0x10#8, 0x17#8, 0x00#8] ++ dest.toList ++
        [0x02#8, 0x44#8, digit, param, ck] ∧
      ck.toNat = 255 - (((frame.toList.drop 3).take 16).map BitVec.toNat).sum % 256

/-- R212 and R235, over the selector of R93. -/
def Obligations.BuildOfPinsBelowFourIsRefused : Prop :=
  (∀ (s : State) (pin : BitVec 2) (level : Bool) (dest : RemoteAddress),
    exec (.bldErr pin level dest) s = .next { s with out := .bld .invalidArgument }) ∧
  (∀ (s : State) (pin : BitVec 3) (level : Bool) (dest : RemoteAddress),
    exec (bldInstr (pin ++ BitVec.ofBool level) dest) s = .next { s with out := .bld .invalidArgument } ↔
      pin.toNat < 4) ∧
  BuildResult.err .invalidArgument = 1#1

/-- R214. -/
def Obligations.PinAndLevelChangeOneByteAndTheChecksum : Prop :=
  ∀ (s : State) (dest : RemoteAddress) (pin qin : BitVec 3) (level mevel : Bool)
    (f g : Vector Byte 20),
    exec (bldInstr (pin ++ BitVec.ofBool level) dest) s = .next { s with out := .bld (.bytes f) } →
    exec (bldInstr (qin ++ BitVec.ofBool mevel) dest) s = .next { s with out := .bld (.bytes g) } →
    (pin ≠ qin → level = mevel → ∀ k : Fin 20, f[k] ≠ g[k] ↔ (k = 17 ∨ k = 19)) ∧
    (pin = qin → level ≠ mevel → ∀ k : Fin 20, f[k] ≠ g[k] ↔ (k = 18 ∨ k = 19)) ∧
    (pin = qin → level = mevel → f = g) ∧
    (qin.toNat = pin.toNat + 1 → level = false → mevel = true → f[(19 : Fin 20)] = g[(19 : Fin 20)])

/-- R216. -/
def Obligations.BuiltFramesLoopBack : Prop :=
  ∀ (s : State) (dest : RemoteAddress) (pin : BitVec 3) (level : Bool) (f : Vector Byte 20),
    wfRegs s.cfg.maxPayload s.regs = true → s.regs.st = stReady → 16 ≤ s.cfg.maxPayload.toNat →
    exec (bldInstr (pin ++ BitVec.ofBool level) dest) s = .next { s with out := .bld (.bytes f) } →
    ∃ t g, exec (.asmFeed f.toList) s = .next t ∧ t.out = .feed [⟨g, true⟩] ∧ t.regs = s.regs ∧
      g.length = 16#16 ∧ g.payload = (f.toList.drop 3).take 16 ∧ g.checksum = f[(19 : Fin 20)] ∧
      exec (decInstr g) s = .next { s with out := .dec .notApplicable }

/-- R67 "each call operates only on its own input/output", R171, R199. -/
def Obligations.StatelessUnitsTouchNothing : Prop :=
  ∀ (i : Instr) (s t u : State),
    (match i with
     | .asmBadst _ | .asmSof | .asmSkip _ | .asmLenh _ | .asmLenl _ | .asmLenlOvf _ | .asmPay _
     | .asmCk _ | .asmStep _ | .asmFeed _ | .asmReset => False
     | _ => True) →
    exec i s = .next t → u.cfg = s.cfg →
    t = { s with out := t.out } ∧ exec i u = .next { u with out := t.out }

/-- R263 "keep them for the life of the instance" and R38 "constant"; that State carries them is the model's choice, log 2. That a step takes the first request and no other off the list is the model's choice, log 5. -/
def Obligations.NoStepChangesTheConfiguration : Prop :=
  ∀ s t : State, step s = .next t → t.cfg = s.cfg ∧ t.requests = s.requests.tail

/-- R27, R29 and R40: what an operation does comes from the architectural state, the configuration and its operands; of what R27 keeps out of the state the configuration alone is read, and neither the requests to come nor an earlier result. That State, the run, holds those beside the hardware's AsmState is the model's choice, log 23. -/
def Obligations.OperationsSeeOnlyTheHardware : Prop :=
  ∀ (i : Instr) (s t : State) (later : List (List Byte)) (before : Output), exec i s = .next t →
    t.cfg = s.cfg ∧ t.requests = s.requests ∧
    exec i { s with requests := later, out := before } = .next { t with requests := later }
end

