-- ==== Sys2Proof/Laws/State.lean ====
section
/-! SUPPORT. One lemma per field of State and update, true by rfl; no later proof unfolds an update. -/

namespace Sys2Proof.Machine

@[simp] theorem AsmState.withRegs_regs (r : AsmRegs) (a : AsmState) : (a.withRegs r).regs = r := rfl
@[simp] theorem AsmState.withRegs_buf (r : AsmRegs) (a : AsmState) : (a.withRegs r).buf = a.buf := rfl
@[simp] theorem AsmState.withBuf_regs (m : Memory) (a : AsmState) : (a.withBuf m).regs = a.regs := rfl
@[simp] theorem AsmState.withBuf_buf (m : Memory) (a : AsmState) : (a.withBuf m).buf = m := rfl

@[simp] theorem State.withAsm_toAsmState (a : AsmState) (s : State) : (s.withAsm a).toAsmState = a := rfl
@[simp] theorem State.withAsm_regs (a : AsmState) (s : State) : (s.withAsm a).regs = a.regs := rfl
@[simp] theorem State.withAsm_buf (a : AsmState) (s : State) : (s.withAsm a).buf = a.buf := rfl
@[simp] theorem State.withAsm_cfg (a : AsmState) (s : State) : (s.withAsm a).cfg = s.cfg := rfl
@[simp] theorem State.withAsm_requests (a : AsmState) (s : State) : (s.withAsm a).requests = s.requests := rfl
@[simp] theorem State.withAsm_out (a : AsmState) (s : State) : (s.withAsm a).out = s.out := rfl

@[simp] theorem State.withOut_toAsmState (o : Output) (s : State) : (s.withOut o).toAsmState = s.toAsmState := rfl
@[simp] theorem State.withOut_regs (o : Output) (s : State) : (s.withOut o).regs = s.regs := rfl
@[simp] theorem State.withOut_buf (o : Output) (s : State) : (s.withOut o).buf = s.buf := rfl
@[simp] theorem State.withOut_cfg (o : Output) (s : State) : (s.withOut o).cfg = s.cfg := rfl
@[simp] theorem State.withOut_requests (o : Output) (s : State) : (s.withOut o).requests = s.requests := rfl
@[simp] theorem State.withOut_out (o : Output) (s : State) : (s.withOut o).out = o := rfl

@[simp] theorem State.withRequests_toAsmState (q : List (List Byte)) (s : State) : (s.withRequests q).toAsmState = s.toAsmState := rfl
@[simp] theorem State.withRequests_regs (q : List (List Byte)) (s : State) : (s.withRequests q).regs = s.regs := rfl
@[simp] theorem State.withRequests_buf (q : List (List Byte)) (s : State) : (s.withRequests q).buf = s.buf := rfl
@[simp] theorem State.withRequests_cfg (q : List (List Byte)) (s : State) : (s.withRequests q).cfg = s.cfg := rfl
@[simp] theorem State.withRequests_requests (q : List (List Byte)) (s : State) : (s.withRequests q).requests = q := rfl
@[simp] theorem State.withRequests_out (q : List (List Byte)) (s : State) : (s.withRequests q).out = s.out := rfl

@[simp] theorem State.afterStep_toAsmState (ans : StepAnswer) (s : State) : (s.afterStep ans).toAsmState = ans.asm := rfl
@[simp] theorem State.afterStep_regs (ans : StepAnswer) (s : State) : (s.afterStep ans).regs = ans.asm.regs := rfl
@[simp] theorem State.afterStep_buf (ans : StepAnswer) (s : State) : (s.afterStep ans).buf = ans.asm.buf := rfl
@[simp] theorem State.afterStep_cfg (ans : StepAnswer) (s : State) : (s.afterStep ans).cfg = s.cfg := rfl
@[simp] theorem State.afterStep_requests (ans : StepAnswer) (s : State) : (s.afterStep ans).requests = s.requests := rfl
@[simp] theorem State.afterStep_out (ans : StepAnswer) (s : State) : (s.afterStep ans).out = .step ans.transient ans.frame := rfl

@[simp] theorem quietStep_asm (r : AsmRegs) (a : AsmState) : (quietStep r a).asm = a.withRegs r := rfl
@[simp] theorem quietStep_transient (r : AsmRegs) (a : AsmState) : (quietStep r a).transient = .none := rfl
@[simp] theorem quietStep_frame (r : AsmRegs) (a : AsmState) : (quietStep r a).frame = none := rfl
@[simp] theorem raiseInvalid_asm (a : AsmState) : (raiseInvalid a).asm = a.withRegs readyRegs := rfl
@[simp] theorem raiseInvalid_transient (a : AsmState) : (raiseInvalid a).transient = .invalid := rfl
@[simp] theorem raiseInvalid_frame (a : AsmState) : (raiseInvalid a).frame = none := rfl

/-- The frames of a step's output. -/
@[simp] theorem frames_step (t : Transient) (f : Option Emitted) : (Output.step t f).frames = f.toList := by
  cases f <;> rfl

@[simp] theorem frames_feed (es : List Emitted) : (Output.feed es).frames = es := rfl

@[simp] theorem readyRegs_st : readyRegs.st = stReady := rfl
@[simp] theorem readyRegs_len : readyRegs.len = 0#16 := rfl
@[simp] theorem readyRegs_rem : readyRegs.rem = 0#16 := rfl
@[simp] theorem readyRegs_wr : readyRegs.wr = 0#16 := rfl

@[simp] theorem stLengthHigh_ne_stReady : stLengthHigh ≠ stReady := by decide
@[simp] theorem stLengthLow_ne_stReady : stLengthLow ≠ stReady := by decide
@[simp] theorem stLengthLow_ne_stLengthHigh : stLengthLow ≠ stLengthHigh := by decide
@[simp] theorem stPayload_ne_stReady : stPayload ≠ stReady := by decide
@[simp] theorem stPayload_ne_stLengthHigh : stPayload ≠ stLengthHigh := by decide
@[simp] theorem stPayload_ne_stLengthLow : stPayload ≠ stLengthLow := by decide

/-- Storing the results that are there already changes nothing. -/
@[simp] theorem State.withOut_self (s : State) : s.withOut s.out = s := rfl

@[simp] theorem State.withOut_withOut (o p : Output) (s : State) : (s.withOut o).withOut p = s.withOut p := rfl

/-- All that a stateless unit does. -/
theorem answer_eq (o : Output) (s : State) : answer o s = .next (s.withOut o) := rfl

end Sys2Proof.Machine
end

