-- ==== Sys2Proof/Laws/Memory.lean ====
section
/-! SUPPORT. The laws of the payload buffer: read after write, and that every write keeps the canonical
form and the bounds. -/

namespace Sys2Proof.Machine

theorem Memory.read_write_same (m : Memory) (a : Nat) (v : Byte) : (m.write a v).read a = some v := by
  induction m with
  | nil => simp [Memory.write, Memory.read]
  | cons c rest ih =>
    obtain ⟨k, w⟩ := c
    unfold Memory.write
    split
    · simp [Memory.read]
    · split
      · simp [Memory.read]
      · rename_i h
        simp [Memory.read, Ne.symm h, ih]

theorem Memory.read_write_other (m : Memory) {a x : Nat} (v : Byte) (h : x ≠ a) :
    (m.write a v).read x = m.read x := by
  induction m with
  | nil => simp [Memory.write, Memory.read, Ne.symm h]
  | cons c rest ih =>
    obtain ⟨k, w⟩ := c
    unfold Memory.write
    split
    · simp [Memory.read, Ne.symm h]
    · split
      · rename_i hk
        subst hk
        simp [Memory.read, Ne.symm h]
      · simp [Memory.read, ih]

/-- The cells of a written memory: the written one, or one that was there. -/
theorem Memory.mem_write {m : Memory} {a : Nat} {v : Byte} {c : Host.Cell} (h : c ∈ m.write a v) :
    c = (a, v) ∨ c ∈ m := by
  induction m with
  | nil => simpa [Memory.write] using h
  | cons d rest ih =>
    obtain ⟨k, w⟩ := d
    unfold Memory.write at h
    split at h
    · simpa using h
    · split at h
      · rcases List.mem_cons.1 h with h | h
        · exact .inl h
        · exact .inr (List.mem_cons_of_mem _ h)
      · rcases List.mem_cons.1 h with h | h
        · exact .inr (by simp [h])
        · exact (ih h).imp id (List.mem_cons_of_mem _)

theorem Memory.write_wf {m : Memory} (a : Nat) (v : Byte) (h : m.wf) : (m.write a v).wf := by
  induction m with
  | nil => simp [Memory.write, Memory.wf]
  | cons d rest ih =>
    obtain ⟨k, w⟩ := d
    obtain ⟨hk, hr⟩ := List.pairwise_cons.1 h
    unfold Memory.write
    split
    · rename_i ha
      exact List.pairwise_cons.2 ⟨fun c hc => by
        rcases List.mem_cons.1 hc with rfl | hc
        · exact ha
        · exact Nat.lt_trans ha (hk c hc), h⟩
    · split
      · rename_i he
        subst he
        exact List.pairwise_cons.2 ⟨hk, hr⟩
      · rename_i hlt hne
        refine List.pairwise_cons.2 ⟨fun c hc => ?_, ih hr⟩
        rcases Memory.mem_write hc with rfl | hc
        · show k < a
          omega
        · exact hk c hc

/-- All that a write to the buffer does: it stores inside the capacity, or nothing happens. -/
theorem bufWrite_cases (max : Half) (m : Memory) (a : Nat) (v : Byte) :
    (a < max.toNat ∧ bufWrite max m a v = some (m.write a v)) ∨
    (max.toNat ≤ a ∧ bufWrite max m a v = none) := by
  by_cases h : a < max.toNat
  · exact .inl ⟨h, if_pos h⟩
  · exact .inr ⟨Nat.le_of_not_lt h, if_neg h⟩

@[simp] theorem bufRead_length (m : Memory) (n : Nat) : (bufRead m n).length = n := by
  simp [bufRead]

@[simp] theorem bufRead_zero (m : Memory) : bufRead m 0 = [] := rfl

theorem bufRead_succ (m : Memory) (n : Nat) : bufRead m (n + 1) = bufRead m n ++ [bufByte m n] := by
  simp [bufRead, List.range_succ]

/-- Byte `a` of what `ASM.CK` reads is the byte written at `a`. -/
theorem bufRead_getElem? {m : Memory} {n a : Nat} {v : Byte} (ha : a < n) (hv : m.read a = some v) :
    (bufRead m n)[a]? = some v := by
  simp [bufRead, ha, bufByte, hv]

/-- Two buffers that read alike below `n` give the same frame. -/
theorem bufRead_congr {m k : Memory} {n : Nat} (h : ∀ a, a < n → m.read a = k.read a) :
    bufRead m n = bufRead k n := by
  refine List.map_congr_left fun a ha => ?_
  rw [bufByte, bufByte, h a (List.mem_range.1 ha)]

theorem bufByte_write_same (m : Memory) (a : Nat) (v : Byte) : bufByte (m.write a v) a = v := by
  simp [bufByte, Memory.read_write_same]

theorem bufByte_write_other (m : Memory) {a x : Nat} (v : Byte) (h : x ≠ a) :
    bufByte (m.write a v) x = bufByte m x := by
  simp [bufByte, Memory.read_write_other m v h]

/-- A write at `n` does not change the bytes below `n`. -/
theorem bufRead_write_at (m : Memory) (n : Nat) (v : Byte) : bufRead (m.write n v) n = bufRead m n :=
  bufRead_congr fun a ha => Memory.read_write_other m v (by omega)

end Sys2Proof.Machine
end

