-- ==== Sys2Proof/Laws/Decode.lean ====
section
/-! SUPPORT. The laws of the byte-order helpers and of the dispatch of ASM. -/

namespace Sys2Proof

theorem be16_toNat (h l : Byte) : (be16 h l).toNat = 256 * h.toNat + l.toNat := by
  have := h.isLt
  have := l.isLt
  simp only [be16, BitVec.toNat_ofNat]
  omega

theorem hiByte_toNat (v : Half) : (hiByte v).toNat = v.toNat / 256 := by
  have := v.isLt
  simp only [hiByte, BitVec.extractLsb'_toNat, Nat.shiftRight_eq_div_pow]
  omega

theorem loByte_toNat (v : Half) : (loByte v).toNat = v.toNat % 256 := by
  simp [loByte, BitVec.extractLsb'_toNat]

@[simp] theorem be16_hiByte_loByte (v : Half) : be16 (hiByte v) (loByte v) = v := by
  apply BitVec.eq_of_toNat_eq
  rw [be16_toNat, hiByte_toNat, loByte_toNat]
  omega

@[simp] theorem hiByte_be16 (h l : Byte) : hiByte (be16 h l) = h := by
  apply BitVec.eq_of_toNat_eq
  rw [hiByte_toNat, be16_toNat]
  have := l.isLt
  omega

@[simp] theorem loByte_be16 (h l : Byte) : loByte (be16 h l) = l := by
  apply BitVec.eq_of_toNat_eq
  rw [loByte_toNat, be16_toNat]
  have := l.isLt
  omega

theorem declaredLength_toNat (r : AsmRegs) (b : Byte) :
    (declaredLength r b).toNat = 256 * (r.len.toNat / 256) + b.toNat := by
  rw [declaredLength, be16_toNat, hiByte_toNat]

theorem exceeds_iff (max v : Half) : exceeds max v = true ↔ max.toNat < v.toNat := by
  simp [exceeds]

/-- `WF` as rule R26 writes it. -/
theorem wfRegs_iff (max : Half) (r : AsmRegs) : wfRegs max r = true ↔
    (r.st = stReady ∧ r.len = 0#16 ∧ r.rem = 0#16 ∧ r.wr = 0#16) ∨
    (r.st = stLengthHigh ∧ r.len = 0#16 ∧ r.rem = 0#16 ∧ r.wr = 0#16) ∨
    (r.st = stLengthLow ∧ loByte r.len = 0#8 ∧ r.rem = 0#16 ∧ r.wr = 0#16) ∨
    (r.st = stPayload ∧ r.len.toNat ≤ max.toNat ∧ r.wr.toNat + r.rem.toNat = r.len.toNat) := by
  simp [wfRegs, exceeds, and_assoc, or_assoc]

/-- When a byte takes which arm: one case for each arm, with everything the case knows. -/
theorem armOf_cases (max : Half) (r : AsmRegs) (b : Byte) :
    (armOf max r b = .badst ∧ wfRegs max r = false) ∨
    (armOf max r b = .sof ∧ wfRegs max r = true ∧ r.st = stReady ∧ b = 0x7E#8) ∨
    (armOf max r b = .skip ∧ wfRegs max r = true ∧ r.st = stReady ∧ b ≠ 0x7E#8) ∨
    (armOf max r b = .lenh ∧ wfRegs max r = true ∧ r.st = stLengthHigh) ∨
    (armOf max r b = .lenl ∧ wfRegs max r = true ∧ r.st = stLengthLow ∧
      (declaredLength r b).toNat ≤ max.toNat) ∨
    (armOf max r b = .lenlOvf ∧ wfRegs max r = true ∧ r.st = stLengthLow ∧
      max.toNat < (declaredLength r b).toNat) ∨
    (armOf max r b = .pay ∧ wfRegs max r = true ∧ r.st = stPayload ∧ r.rem ≠ 0#16) ∨
    (armOf max r b = .ck ∧ wfRegs max r = true ∧ r.st = stPayload ∧ r.rem = 0#16) := by
  by_cases hw : wfRegs max r = true
  · have h4 := (wfRegs_iff max r).1 hw
    have hst : r.st = stReady ∨ r.st = stLengthHigh ∨ r.st = stLengthLow ∨ r.st = stPayload := by tauto
    rcases hst with h | h | h | h
    · by_cases hb : b = 0x7E#8 <;> simp [armOf, hw, h, hb]
    · simp [armOf, hw, h]
    · by_cases he : max.toNat < (declaredLength r b).toNat
      · simp [armOf, hw, h, exceeds, he, stReady, stLengthHigh, stLengthLow, stPayload]
      · simp [armOf, hw, h, exceeds, he, Nat.le_of_not_lt he, stReady, stLengthHigh, stLengthLow, stPayload]
    · by_cases hr : r.rem = 0#16 <;>
        simp [armOf, hw, h, hr, stReady, stLengthHigh, stLengthLow, stPayload]
  · simp [armOf, hw]

/-! ### Records -/

@[simp] theorem portOfByte_code (q : Port) : portOfByte q.code = some q := by
  cases q <;> decide

theorem code_of_portOfByte {p : Byte} {q : Port} (h : portOfByte p = some q) : q.code = p := by
  simpa using List.find?_some h

/-- A record that begins with a port's byte is decoded as a request to that port. -/
@[simp] theorem decode_code_cons (max : Half) (r : AsmRegs) (q : Port) (ops : List Byte) :
    decode max r (q.code :: ops) = decodeOperands max r q ops := by
  simp [decode]

/-- Every decoded record is a request to some port. -/
theorem decode_ok_cases {max : Half} {r : AsmRegs} {record : List Byte} {i : Instr}
    (h : decode max r record = .ok i) :
    ∃ q ops, record = Port.code q :: ops ∧ decodeOperands max r q ops = .ok i := by
  cases record with
  | nil => cases h
  | cons p ops =>
    cases hq : portOfByte p with
    | none => simp [decode, hq] at h
    | some q => exact ⟨q, ops, by rw [code_of_portOfByte hq], by simpa [decode, hq] using h⟩

/-- The ten bytes of an address. -/
theorem address_eq (dest : RemoteAddress) :
    ∃ a0 a1 a2 a3 a4 a5 a6 a7 a8 a9, dest = #v[a0, a1, a2, a3, a4, a5, a6, a7, a8, a9] := by
  obtain ⟨⟨l⟩, h⟩ := dest
  match l, h with
  | [a0, a1, a2, a3, a4, a5, a6, a7, a8, a9], _ => exact ⟨a0, a1, a2, a3, a4, a5, a6, a7, a8, a9, rfl⟩

/-- A builder record decodes to the row its selector selects. -/
theorem decode_encodeBuild (max : Half) (r : AsmRegs) (sel : BitVec 4) (dest : RemoteAddress) :
    decode max r (encodeBuild sel dest) = .ok (bldInstr sel dest) := by
  obtain ⟨a0, a1, a2, a3, a4, a5, a6, a7, a8, a9, rfl⟩ := address_eq dest
  have h : ∀ sel : BitVec 4, (sel.setWidth 8).extractLsb' 4 4 = 0#4 ∧
      (sel.setWidth 8).extractLsb' 0 4 = sel := by decide
  simp [encodeBuild, decodeOperands, decodeBuild, h sel]

end Sys2Proof
end

