-- ==== Sys2Proof/Laws/Asm.lean ====
section
/-! SUPPORT. What the arms, the step and the fold of ASM can do, said once. -/

namespace Sys2Proof.Machine

/-- All that `ASM.PAY` does: the byte is stored at `wr` inside the capacity and the counters move, or
the store would be outside and nothing happens. -/
theorem armPay_cases (max : Half) (b : Byte) (a : AsmState) :
    (a.regs.wr.toNat < max.toNat ∧
      armPay max b a = some (quietStep { a.regs with wr := a.regs.wr + 1#16, rem := a.regs.rem - 1#16 }
        (a.withBuf (a.buf.write a.regs.wr.toNat b)))) ∨
    (max.toNat ≤ a.regs.wr.toNat ∧ armPay max b a = none) := by
  rcases bufWrite_cases max a.buf a.regs.wr.toNat b with ⟨h, e⟩ | ⟨h, e⟩
  · exact .inl ⟨h, by simp [armPay, e]⟩
  · exact .inr ⟨h, by simp [armPay, e]⟩

/-- In a well-formed payload state with bytes to come, `wr` lies inside the capacity. -/
theorem wr_inside {max : Half} {r : AsmRegs} (hw : wfRegs max r = true) (hst : r.st = stPayload)
    (hr : r.rem ≠ 0#16) :
    r.wr.toNat < max.toNat ∧ r.wr.toNat + r.rem.toNat = r.len.toNat ∧ 0 < r.rem.toNat := by
  have h0 : r.rem.toNat ≠ 0 := fun h => hr (BitVec.eq_of_toNat_eq h)
  rcases (wfRegs_iff max r).1 hw with h | h | h | h
  · simp [hst, stPayload, stReady] at h
  · simp [hst, stPayload, stLengthHigh] at h
  · simp [hst, stPayload, stLengthLow] at h
  · omega

/-- At checksum capture of a well-formed state, `wr = len` and `len` is inside the capacity. -/
theorem wr_eq_len {max : Half} {r : AsmRegs} (hw : wfRegs max r = true) (hst : r.st = stPayload)
    (hr : r.rem = 0#16) : r.wr.toNat = r.len.toNat ∧ r.len.toNat ≤ max.toNat := by
  rcases (wfRegs_iff max r).1 hw with h | h | h | h
  · simp [hst, stPayload, stReady] at h
  · simp [hst, stPayload, stLengthHigh] at h
  · simp [hst, stPayload, stLengthLow] at h
  · simp [hr] at h
    omega

/-- Everything one step of ASM can do: the byte takes one arm, and this is its answer. -/
theorem asmStep_cases (max : Half) (b : Byte) (a : AsmState) :
    (armOf max a.regs b = .badst ∧ wfRegs max a.regs = false ∧ asmStep max b a = some (raiseInvalid a)) ∨
    (armOf max a.regs b = .sof ∧ wfRegs max a.regs = true ∧ a.regs.st = stReady ∧ b = 0x7E#8 ∧
      asmStep max b a = some (quietStep ⟨stLengthHigh, 0#16, 0#16, 0#16⟩ a)) ∨
    (armOf max a.regs b = .skip ∧ wfRegs max a.regs = true ∧ a.regs.st = stReady ∧ b ≠ 0x7E#8 ∧
      asmStep max b a = some (quietStep a.regs a)) ∨
    (armOf max a.regs b = .lenh ∧ wfRegs max a.regs = true ∧ a.regs.st = stLengthHigh ∧
      asmStep max b a = some (quietStep { a.regs with st := stLengthLow, len := be16 b 0#8 } a)) ∨
    (armOf max a.regs b = .lenl ∧ wfRegs max a.regs = true ∧ a.regs.st = stLengthLow ∧
      (declaredLength a.regs b).toNat ≤ max.toNat ∧
      asmStep max b a = some (quietStep { a.regs with
        st := stPayload, len := declaredLength a.regs b, rem := declaredLength a.regs b } a)) ∨
    (armOf max a.regs b = .lenlOvf ∧ wfRegs max a.regs = true ∧ a.regs.st = stLengthLow ∧
      max.toNat < (declaredLength a.regs b).toNat ∧ asmStep max b a = some (raiseInvalid a)) ∨
    (armOf max a.regs b = .pay ∧ wfRegs max a.regs = true ∧ a.regs.st = stPayload ∧ a.regs.rem ≠ 0#16 ∧
      asmStep max b a = some (quietStep { a.regs with wr := a.regs.wr + 1#16, rem := a.regs.rem - 1#16 }
        (a.withBuf (a.buf.write a.regs.wr.toNat b)))) ∨
    (armOf max a.regs b = .ck ∧ wfRegs max a.regs = true ∧ a.regs.st = stPayload ∧ a.regs.rem = 0#16 ∧
      asmStep max b a = some ⟨a.withRegs readyRegs, .complete,
        some (emitted ⟨bufRead a.buf a.regs.len.toNat, b⟩)⟩) := by
  rcases armOf_cases max a.regs b with
    ⟨ha, hw⟩ | ⟨ha, hw, hst, hb⟩ | ⟨ha, hw, hst, hb⟩ | ⟨ha, hw, hst⟩ | ⟨ha, hw, hst, hl⟩ |
    ⟨ha, hw, hst, hl⟩ | ⟨ha, hw, hst, hr⟩ | ⟨ha, hw, hst, hr⟩
  · exact .inl ⟨ha, hw, by simp [asmStep, ha, armBadst]⟩
  · exact .inr (.inl ⟨ha, hw, hst, hb, by simp [asmStep, ha, armSof]⟩)
  · exact .inr (.inr (.inl ⟨ha, hw, hst, hb, by simp [asmStep, ha, armSkip]⟩))
  · exact .inr (.inr (.inr (.inl ⟨ha, hw, hst, by simp [asmStep, ha, armLenh]⟩)))
  · exact .inr (.inr (.inr (.inr (.inl ⟨ha, hw, hst, hl, by simp [asmStep, ha, armLenl]⟩))))
  · exact .inr (.inr (.inr (.inr (.inr (.inl ⟨ha, hw, hst, hl, by simp [asmStep, ha, armLenlOvf]⟩)))))
  · have h := wr_inside hw hst hr
    rcases armPay_cases max b a with ⟨_, e⟩ | ⟨h', _⟩
    · exact .inr (.inr (.inr (.inr (.inr (.inr (.inl ⟨ha, hw, hst, hr, by simp [asmStep, ha, e]⟩))))))
    · omega
  · exact .inr (.inr (.inr (.inr (.inr (.inr (.inr ⟨ha, hw, hst, hr, by simp [asmStep, ha, armCk]⟩))))))

/-- The step is total (41_assembler.md R130). -/
theorem asmStep_total (max : Half) (b : Byte) (a : AsmState) : ∃ ans, asmStep max b a = some ans := by
  rcases asmStep_cases max b a with h | h | h | h | h | h | h | h
  · exact ⟨_, h.2.2⟩
  · exact ⟨_, h.2.2.2.2⟩
  · exact ⟨_, h.2.2.2.2⟩
  · exact ⟨_, h.2.2.2⟩
  · exact ⟨_, h.2.2.2.2⟩
  · exact ⟨_, h.2.2.2.2⟩
  · exact ⟨_, h.2.2.2.2⟩
  · exact ⟨_, h.2.2.2.2⟩

@[simp] theorem report_some (ans : StepAnswer) (s : State) : report (some ans) s = .next (s.afterStep ans) := rfl

/-- A step in a run: what the hardware answers, and nothing of the run but that. -/
theorem execAsmStep_eq {b : Byte} {s : State} {ans : StepAnswer}
    (h : asmStep s.cfg.maxPayload b s.toAsmState = some ans) : execAsmStep b s = .next (s.afterStep ans) := by
  rw [execAsmStep, h, report_some]

/-- A row run where the byte takes its arm has the arm's effect. -/
theorem asRow_selected {arm : AsmArm} {b : Byte} {s : State} (h : armAt b s = arm) (e : Option StepAnswer) :
    asRow arm b e s = report e s := if_pos h

/-- A row run anywhere else is refused by name. -/
theorem asRow_refused {arm : AsmArm} {b : Byte} {s : State} (h : armAt b s ≠ arm) (e : Option StepAnswer) :
    asRow arm b e s = .refused (.rowNotSelected (armInstr b arm)) := if_neg h

/-- The row of the arm that a byte takes is the step of that byte (41_assembler.md R130). -/
theorem exec_armInstr (b : Byte) (s : State) : exec (armInstr b (armAt b s)) s = execAsmStep b s := by
  have hsof : armOf s.cfg.maxPayload s.regs b = .sof → b = 0x7E#8 := by
    intro h
    rcases armOf_cases s.cfg.maxPayload s.regs b with
      c | c | c | c | c | c | c | c <;> simp_all
  cases h : armOf s.cfg.maxPayload s.regs b with
  | sof =>
    obtain rfl := hsof h
    simp [armAt, h, armInstr, exec, execAsmSof, asRow, execAsmStep, asmStep]
  | _ =>
    simp [armAt, h, armInstr, exec, execAsmBadst, execAsmSkip, execAsmLenh, execAsmLenl, execAsmLenlOvf,
      execAsmPay, execAsmCk, asRow, execAsmStep, asmStep]

@[simp] theorem asmFeed_nil (max : Half) (a : AsmState) : asmFeed max [] a = some ([], a) := rfl

/-- One byte of a feed. -/
theorem asmFeed_cons {max : Half} {b : Byte} {a : AsmState} {ans : StepAnswer} (h : asmStep max b a = some ans)
    (rest : List Byte) : asmFeed max (b :: rest) a =
      (asmFeed max rest ans.asm).map fun r => (ans.frame.toList ++ r.1, r.2) := by
  rw [asmFeed, h]

/-- A feed is total (41_assembler.md R139). -/
theorem asmFeed_total (max : Half) (chunk : List Byte) : ∀ a, ∃ r, asmFeed max chunk a = some r := by
  induction chunk with
  | nil => exact fun a => ⟨_, rfl⟩
  | cons b rest ih =>
    intro a
    obtain ⟨ans, h⟩ := asmStep_total max b a
    obtain ⟨r, hr⟩ := ih ans.asm
    exact ⟨_, by rw [asmFeed_cons h, hr]; rfl⟩

/-- A feed of two chunks in one is the feed of the first and then of the second (41_assembler.md R140). -/
theorem asmFeed_append (max : Half) (p q : List Byte) : ∀ a, asmFeed max (p ++ q) a =
    (asmFeed max p a).bind fun r => (asmFeed max q r.2).map fun t => (r.1 ++ t.1, t.2) := by
  induction p with
  | nil => intro a; simp
  | cons b rest ih =>
    intro a
    obtain ⟨ans, h⟩ := asmStep_total max b a
    obtain ⟨r, hr⟩ := asmFeed_total max rest ans.asm
    obtain ⟨t, ht⟩ := asmFeed_total max q r.2
    simp [asmFeed_cons h, ih, hr, ht]

/-- A feed in a run: what the hardware answers, and nothing of the run but that. -/
theorem execAsmFeed_eq {chunk : List Byte} {s : State} {fs : List Emitted} {a : AsmState}
    (h : asmFeed s.cfg.maxPayload chunk s.toAsmState = some (fs, a)) :
    execAsmFeed chunk s = .next ((s.withAsm a).withOut (.feed fs)) := by
  rw [execAsmFeed, h]

end Sys2Proof.Machine
end

