-- ==== Sys2Proof/Laws/PerInstr.lean ====
section
/-! SUPPORT. One lemma per instruction, on its syntax and its encoding. Family `RecordPort`: the record
of an instruction begins with the byte that names its port or operation. -/

namespace Sys2Proof.Laws.RecordPort

/-- The byte that names an instruction's port or operation in its record. -/
def portOf : Instr → Byte
  | .asmBadst _ => Port.code .inData
  | .asmSof => Port.code .inData
  | .asmSkip _ => Port.code .inData
  | .asmLenh _ => Port.code .inData
  | .asmLenl _ => Port.code .inData
  | .asmLenlOvf _ => Port.code .inData
  | .asmPay _ => Port.code .inData
  | .asmCk _ => Port.code .inData
  | .decIo _ => Port.code .decDecode
  | .decNa _ => Port.code .decDecode
  | .bldD4High _ => Port.code .bldBuild
  | .bldD4Low _ => Port.code .bldBuild
  | .bldD5High _ => Port.code .bldBuild
  | .bldD5Low _ => Port.code .bldBuild
  | .bldD6High _ => Port.code .bldBuild
  | .bldD6Low _ => Port.code .bldBuild
  | .bldD7High _ => Port.code .bldBuild
  | .bldD7Low _ => Port.code .bldBuild
  | .bldErr _ _ _ => Port.code .bldBuild
  | .cksCompute _ => Port.code .cksCompute
  | .cksVerify _ _ => Port.code .cksVerify
  | .asmStep _ => Port.code .asmStep
  | .asmFeed _ => Port.code .asmFeed
  | .asmReset => Port.code .asmReset
  | .cnvPct _ => Port.code .cnvPct
  | .cnvTemp _ => Port.code .cnvTemp

/-- The record of `i` begins with its port. -/
def Statement (i : Instr) : Prop := (encode i).head? = some (portOf i)

theorem asmBadst : ∀ x, Statement (.asmBadst x) := by intros; rfl
theorem asmSof : Statement (.asmSof) := by rfl
theorem asmSkip : ∀ x, Statement (.asmSkip x) := by intros; rfl
theorem asmLenh : ∀ x, Statement (.asmLenh x) := by intros; rfl
theorem asmLenl : ∀ x, Statement (.asmLenl x) := by intros; rfl
theorem asmLenlOvf : ∀ x, Statement (.asmLenlOvf x) := by intros; rfl
theorem asmPay : ∀ x, Statement (.asmPay x) := by intros; rfl
theorem asmCk : ∀ x, Statement (.asmCk x) := by intros; rfl
theorem decIo : ∀ x, Statement (.decIo x) := by intros; rfl
theorem decNa : ∀ x, Statement (.decNa x) := by intros; rfl
theorem bldD4High : ∀ x, Statement (.bldD4High x) := by intros; rfl
theorem bldD4Low : ∀ x, Statement (.bldD4Low x) := by intros; rfl
theorem bldD5High : ∀ x, Statement (.bldD5High x) := by intros; rfl
theorem bldD5Low : ∀ x, Statement (.bldD5Low x) := by intros; rfl
theorem bldD6High : ∀ x, Statement (.bldD6High x) := by intros; rfl
theorem bldD6Low : ∀ x, Statement (.bldD6Low x) := by intros; rfl
theorem bldD7High : ∀ x, Statement (.bldD7High x) := by intros; rfl
theorem bldD7Low : ∀ x, Statement (.bldD7Low x) := by intros; rfl
theorem bldErr : ∀ x y z, Statement (.bldErr x y z) := by intros; rfl
theorem cksCompute : ∀ x, Statement (.cksCompute x) := by intros; rfl
theorem cksVerify : ∀ x y, Statement (.cksVerify x y) := by intros; rfl
theorem asmStep : ∀ x, Statement (.asmStep x) := by intros; rfl
theorem asmFeed : ∀ x, Statement (.asmFeed x) := by intros; rfl
theorem asmReset : Statement (.asmReset) := by rfl
theorem cnvPct : ∀ x, Statement (.cnvPct x) := by intros; rfl
theorem cnvTemp : ∀ x, Statement (.cnvTemp x) := by intros; rfl

end Sys2Proof.Laws.RecordPort
end

