-- ==== Sys2Proof/Laws/Units.lean ====
section
/-! SUPPORT. One lemma per function of the stateless units, as arithmetic. -/

namespace Sys2Proof.Machine

/-- The checksum as a number: `255 - s` (40_checksum.md R120). -/
theorem checksum_toNat (bytes : List Byte) :
    (checksum bytes).toNat = 255 - (bytes.map BitVec.toNat).sum % 256 := by
  simp only [checksum, BitVec.toNat_ofNat]
  omega

theorem verifies_iff (bytes : List Byte) (c : Byte) : verifies bytes c = true ↔ checksum bytes = c := by
  simp [verifies]

/-- `v = raw[9:0]` as a remainder. -/
theorem lowTen_eq (raw : Half) : lowTen raw = raw.toNat % 1024 := by
  have h : (0x03FF#16).toNat = 2 ^ 10 - 1 := rfl
  rw [lowTen, BitVec.toNat_and, h, Nat.and_two_pow_sub_one_eq_mod]

theorem lowTen_lt (raw : Half) : lowTen raw < 1024 := by
  rw [lowTen_eq]
  omega

theorem popcount_le (m : Byte) : popcount m ≤ 8 := by
  have := List.countP_le_length (p := fun i => m.getLsbD i) (l := List.range 8)
  simpa [popcount] using this

/-- The sample's end is malformed exactly when the payload is too short for it. -/
theorem decodeAnalog_malformed (p : List Byte) (v : Half) (off : Nat) :
    decodeAnalog p v off = .malformed ↔ p.length < off + 2 * popcount (payloadByte p 15) := by
  unfold decodeAnalog
  split <;> simp_all

/-- When a type-`0x92` payload is malformed, in one comparison (42_io_decoder.md R162, R167, R168). -/
theorem decodeIoSample_malformed (p : List Byte) :
    decodeIoSample p = .malformed ↔ (p.length < 16 ∨ p.length < neededLength p) := by
  by_cases hd : payloadHalf p 13 = 0#16
  · have hb : (payloadHalf p 13 != 0#16) = false := by simp [hd]
    rw [decodeIoSample, neededLength, hb, if_pos hd]
    split
    · simp [*]
    · simp only [Bool.false_eq_true, if_false, decodeAnalog_malformed]
      omega
  · have hb : (payloadHalf p 13 != 0#16) = true := by simp [hd]
    rw [decodeIoSample, neededLength, hb, if_neg hd]
    split
    · simp [*]
    · simp only [if_true]
      split
      · simp only [true_iff]
        omega
      · rw [decodeAnalog_malformed]
        omega

theorem bitsBelow_succ (m : Byte) (ch : Nat) :
    bitsBelow m (ch + 1) = bitsBelow m ch + if m.getLsbD ch then 1 else 0 := by
  simp [bitsBelow, List.range_succ, List.countP_append, List.countP_cons]

/-- The channel loop after `n` turns: where the next value stands, and every channel done so far. -/
theorem analogTurns (p : List Byte) (m : Byte) (off n : Nat) (hn : n ≤ 8) :
    let acc := ((List.finRange 8).take n).foldl (analogTurn p m) (Vector.replicate 8 none, off)
    acc.2 = off + 2 * bitsBelow m n ∧
      ∀ ch : Fin 8, ch.val < n → acc.1[ch] =
        if m.getLsbD ch then some (payloadHalf p (off + 2 * bitsBelow m ch)) else none := by
  induction n with
  | zero => simp [bitsBelow]
  | succ n ih =>
    obtain ⟨hoff, hch⟩ := ih (by omega)
    have hget : (List.finRange 8)[n]? = some ⟨n, hn⟩ := by simp [show n < 8 from hn]
    rw [List.take_add_one, List.foldl_append, hget]
    generalize ((List.finRange 8).take n).foldl (analogTurn p m) (Vector.replicate 8 none, off) = acc at *
    by_cases hb : m.getLsbD n = true
    · refine ⟨by simp [analogTurn, hb, hoff, bitsBelow_succ]; omega, fun ch hlt => ?_⟩
      rcases Nat.lt_succ_iff_lt_or_eq.1 hlt with h | h
      · simpa [analogTurn, hb, Nat.ne_of_gt h] using hch ch h
      · obtain rfl : ch = ⟨n, hn⟩ := Fin.ext h
        simp [analogTurn, hb, hoff]
    · refine ⟨by simp [analogTurn, hb, hoff, bitsBelow_succ], fun ch hlt => ?_⟩
      rcases Nat.lt_succ_iff_lt_or_eq.1 hlt with h | h
      · simpa [analogTurn, hb, Nat.ne_of_gt h] using hch ch h
      · obtain rfl : ch = ⟨n, hn⟩ := Fin.ext h
        simp [analogTurn, hb]

/-- What channel `ch` holds (42_io_decoder.md R168, R89). -/
theorem analogChannels_get (p : List Byte) (m : Byte) (off : Nat) (ch : Fin 8) :
    (analogChannels p m off)[ch] =
      if m.getLsbD ch then some (payloadHalf p (off + 2 * bitsBelow m ch)) else none := by
  have h := (analogTurns p m off 8 (Nat.le_refl 8)).2 ch ch.isLt
  rwa [List.take_of_length_le (by simp)] at h

/-- What the selector of R93 runs: one build. -/
theorem exec_bldInstr (pin : BitVec 3) (level : Bool) (dest : RemoteAddress) (s : State) :
    exec (bldInstr (pin ++ BitVec.ofBool level) dest) s = .next (s.withOut (.bld (build dest pin level))) := by
  have h : pin = 0 ∨ pin = 1 ∨ pin = 2 ∨ pin = 3 ∨ pin = 4 ∨ pin = 5 ∨ pin = 6 ∨ pin = 7 := by
    revert pin
    decide
  rcases h with rfl | rfl | rfl | rfl | rfl | rfl | rfl | rfl <;> cases level <;> rfl

/-- The sixteen covered bytes as a list (30_encoding.md R92). -/
theorem buildPayload_toList (dest : RemoteAddress) (pin : BitVec 3) (level : Bool) :
    (buildPayload dest pin level).toList =
      [0x17#8, 0x00#8] ++ dest.toList ++ [0x02#8, 0x44#8, pinDigit pin, levelParam level] := by
  obtain ⟨a0, a1, a2, a3, a4, a5, a6, a7, a8, a9, rfl⟩ := address_eq dest
  rfl

/-- The twenty bytes as a list (30_encoding.md R92). -/
theorem buildBytes_toList (dest : RemoteAddress) (pin : BitVec 3) (level : Bool) :
    (buildBytes dest pin level).toList = [0x7E#8, 0x00#8, 0x10#8] ++
      (buildPayload dest pin level).toList ++ [checksum (buildPayload dest pin level).toList] := by
  rw [buildBytes, Vector.toList_append, Vector.toList_append]
  rfl

/-- A legal pin is not refused (44_builder.md R212). -/
theorem build_legal (dest : RemoteAddress) {pin : BitVec 3} (level : Bool) (h : ¬ pin.toNat < 4) :
    build dest pin level = .bytes (buildBytes dest pin level) := if_neg h

/-- A pin below 4 is refused (44_builder.md R212). -/
theorem build_illegal (dest : RemoteAddress) {pin : BitVec 3} (level : Bool) (h : pin.toNat < 4) :
    build dest pin level = .invalidArgument := if_pos h

end Sys2Proof.Machine
end

