-- ==== Sys2Proof/Tests/Slice0.lean ====
section
/-! SUPPORT. Tests of the model on fixed values, and the witnesses of the statements' hypotheses. An expected
value comes from spec/95_test_vectors.md, by the vector named in the comment, or from the encoding tables of
spec/30_encoding.md; none from a run of the model. -/

namespace Sys2Proof.Tests

open Sys2Proof.Machine

/-! ### Small states -/

/-- The example capacity of 95_test_vectors.md, with the default settings. -/
def cfg256 : Params := ⟨256#16, .halfUp, .truncInt, 7#3⟩

/-- A block with the registers `(st, len, rem, wr)` and a buffer. -/
def block (st : BitVec 3) (len rem wr : Half) (buf : Memory) : State :=
  { regs := ⟨st, len, rem, wr⟩, buf := buf, cfg := cfg256, requests := [], out := .idle }

/-- `Ready0`. -/
def ready0 : State := block 0#3 0#16 0#16 0#16 []

/-- The state of vector A-12. -/
def midPayload : State := block 3#3 2#16 1#16 1#16 [(0, 0x92#8)]

/-- The state of vector A-13: the checksum is next. -/
def atChecksum : State := block 3#3 2#16 0#16 2#16 [(0, 0x92#8), (1, 0x7E#8)]

/-- A state that is not well-formed, vector A-17. -/
def broken : State := block 3#3 5#16 1#16 1#16 []

def regsOf : Host.Outcome State Fault Refusal → Option AsmRegs
  | .next s => some s.regs
  | _ => none

def outOf : Host.Outcome State Fault Refusal → Option Output
  | .next s => some s.out
  | _ => none

def bufOf : Host.Outcome State Fault Refusal → Option Memory
  | .next s => some s.buf
  | _ => none

def refusalOf : Host.Outcome State Fault Refusal → Option Refusal
  | .refused r => some r
  | _ => none

def decoded (r : AsmRegs) (record : List Byte) : Option Instr :=
  match decode 256#16 r record with
  | .ok i => some i
  | .error _ => none

def rejected (record : List Byte) : Option Reject :=
  match decode 256#16 ready0.regs record with
  | .ok _ => none
  | .error why => some why

/-- The address `A` of 95_test_vectors.md. -/
def addrA : RemoteAddress := #v[0x00#8, 0x13#8, 0xA2#8, 0x00#8, 0x40#8, 0x52#8, 0x2B#8, 0xAA#8, 0x7D#8, 0x84#8]

/-- `92` and `A`, the payload offsets 0 to 10 of the vectors D1 to D15. -/
def head92 : List Byte :=
  [0x92#8, 0x00#8, 0x13#8, 0xA2#8, 0x00#8, 0x40#8, 0x52#8, 0x2B#8, 0xAA#8, 0x7D#8, 0x84#8]

/-- `P1`, the payload of vector D1. -/
def p1 : List Byte := head92 ++ [0x01#8, 0x01#8, 0x00#8, 0xF0#8, 0x01#8, 0x00#8, 0x10#8, 0x02#8, 0x58#8]

/-! ### WellFormed refuses an ill-formed term, by each of its checks -/

theorem test_wellformed_skip_of_delimiter : WellFormed (.asmSkip 0x7E#8) = false := by decide

theorem test_wellformed_io_of_other_type : WellFormed (.decIo ⟨[0x97#8, 0x01#8], 0#8⟩) = false := by decide

theorem test_wellformed_io_of_empty : WellFormed (.decIo ⟨[], 0#8⟩) = false := by decide

theorem test_wellformed_na_of_sample : WellFormed (.decNa ⟨[0x92#8], 0#8⟩) = false := by decide

theorem fits_replicate (b c : Byte) (n : Nat) :
    Frame.fits ⟨b :: List.replicate n 0#8, c⟩ = decide (n + 1 ≤ 65535) := by
  simp only [Frame.fits, List.length_cons, List.length_replicate]

theorem test_wellformed_io_too_long (f : Frame) (h : f = ⟨0x92#8 :: List.replicate 65535 0#8, 0#8⟩) :
    WellFormed (.decIo f) = false := by
  rw [WellFormed, h, fits_replicate, decide_eq_false (by omega)]
  rfl

theorem test_wellformed_na_too_long (f : Frame) (h : f = ⟨0x17#8 :: List.replicate 65535 0#8, 0#8⟩) :
    WellFormed (.decNa f) = false := by
  rw [WellFormed, h, fits_replicate, decide_eq_false (by omega)]
  rfl

theorem test_wellformed_longest_frame (f : Frame) (h : f = ⟨0x17#8 :: List.replicate 65534 0#8, 0#8⟩) :
    WellFormed (.decNa f) = true := by
  have hio : f.isIo = false := by
    rw [h]
    rfl
  rw [WellFormed, hio, h, fits_replicate, decide_eq_true (by omega)]
  rfl

/-! ### Decoding: every constructor, from the selectors of spec/30_encoding.md R86, R87, R93 -/

/-- R86: `st` and the byte, over the registers that meet the row's condition. -/
theorem test_decode_asm_arms :
    decoded ready0.regs [0x00#8, 0b01111110#8] = some .asmSof ∧
    decoded ready0.regs [0x00#8, 0b01111101#8] = some (.asmSkip 0x7D#8) ∧
    decoded ⟨1#3, 0#16, 0#16, 0#16⟩ [0x00#8, 0b01111110#8] = some (.asmLenh 0x7E#8) ∧
    decoded ⟨2#3, 0x0100#16, 0#16, 0#16⟩ [0x00#8, 0b00000000#8] = some (.asmLenl 0x00#8) ∧
    decoded ⟨2#3, 0x0100#16, 0#16, 0#16⟩ [0x00#8, 0b00000001#8] = some (.asmLenlOvf 0x01#8) ∧
    decoded midPayload.regs [0x00#8, 0b01111110#8] = some (.asmPay 0x7E#8) ∧
    decoded atChecksum.regs [0x00#8, 0b11101111#8] = some (.asmCk 0xEF#8) ∧
    decoded ⟨4#3, 0#16, 0#16, 0#16⟩ [0x00#8, 0b01111110#8] = some (.asmBadst 0x7E#8) := by decide

/-- R87: the type of the frame, the checksum first in the record. -/
theorem test_decode_dec_rows :
    decoded ready0.regs [0x04#8, 0xF3#8, 0b10010010#8, 0x00#8] = some (.decIo ⟨[0x92#8, 0x00#8], 0xF3#8⟩) ∧
    decoded ready0.regs [0x04#8, 0x55#8, 0b10010111#8] = some (.decNa ⟨[0x97#8], 0x55#8⟩) ∧
    decoded ready0.regs [0x04#8, 0xFF#8] = some (.decNa ⟨[], 0xFF#8⟩) := by decide

/-- R93: `pin[2:0] ++ level`, the address behind it. -/
theorem test_decode_bld_rows :
    decoded ready0.regs (0x05#8 :: 0b1001#8 :: addrA.toList) = some (.bldD4High addrA) ∧
    decoded ready0.regs (0x05#8 :: 0b1000#8 :: addrA.toList) = some (.bldD4Low addrA) ∧
    decoded ready0.regs (0x05#8 :: 0b1011#8 :: addrA.toList) = some (.bldD5High addrA) ∧
    decoded ready0.regs (0x05#8 :: 0b1010#8 :: addrA.toList) = some (.bldD5Low addrA) ∧
    decoded ready0.regs (0x05#8 :: 0b1101#8 :: addrA.toList) = some (.bldD6High addrA) ∧
    decoded ready0.regs (0x05#8 :: 0b1100#8 :: addrA.toList) = some (.bldD6Low addrA) ∧
    decoded ready0.regs (0x05#8 :: 0b1111#8 :: addrA.toList) = some (.bldD7High addrA) ∧
    decoded ready0.regs (0x05#8 :: 0b1110#8 :: addrA.toList) = some (.bldD7Low addrA) ∧
    decoded ready0.regs (0x05#8 :: 0b0111#8 :: addrA.toList) = some (.bldErr 3#2 true addrA) ∧
    decoded ready0.regs (0x05#8 :: 0b0010#8 :: addrA.toList) = some (.bldErr 1#2 false addrA) := by decide

/-- The operations that the spec names and gives no selector: the records of log 6. -/
theorem test_decode_named_operations :
    decoded ready0.regs [0x01#8, 0x41#8] = some (.asmStep 0x41#8) ∧
    decoded ready0.regs [0x02#8, 0x7E#8, 0x00#8] = some (.asmFeed [0x7E#8, 0x00#8]) ∧
    decoded ready0.regs [0x03#8] = some .asmReset ∧
    decoded ready0.regs [0x06#8, 0x80#8, 0x80#8] = some (.cksCompute [0x80#8, 0x80#8]) ∧
    decoded ready0.regs [0x07#8, 0x5A#8, 0x92#8, 0x00#8] = some (.cksVerify [0x92#8, 0x00#8] 0x5A#8) ∧
    decoded ready0.regs [0x08#8, 0x02#8, 0x58#8] = some (.cnvPct (some 0x0258#16)) ∧
    decoded ready0.regs [0x09#8, 0x03#8, 0xFF#8] = some (.cnvTemp (some 0x03FF#16)) ∧
    decoded ready0.regs [0x09#8] = some (.cnvTemp none) := by decide

/-- The decoder rejects by name (log 6). -/
theorem test_decode_rejects :
    rejected [] = some .emptyRecord ∧ rejected [0x0A#8] = some (.unknownPort 0x0A#8) ∧
    rejected [0x00#8] = some (.operandCount .inData) ∧
    rejected [0x03#8, 0x00#8] = some (.operandCount .asmReset) ∧
    rejected [0x04#8] = some (.operandCount .decDecode) ∧
    rejected [0x05#8, 0x09#8] = some (.operandCount .bldBuild) ∧
    rejected [0x07#8] = some (.operandCount .cksVerify) ∧
    rejected [0x08#8, 0x02#8] = some (.operandCount .cnvPct) ∧
    rejected (0x05#8 :: 0x19#8 :: addrA.toList) = some (.selectorBits 0x19#8) := by decide

/-- The selector words of the table as the host numbers them (log 16). -/
theorem test_decode_table_words :
    decodeTableWord 16 0x07E = some .asmSof ∧ decodeTableWord 16 0x400 = some (.asmBadst 0x00#8) ∧
    decodeTableWord 8 0x9 = some (.bldD4High (Vector.replicate 10 0#8)) ∧
    decodeTableWord 8 0x92 = some (.decIo ⟨0x92#8 :: List.replicate 15 0#8, 0#8⟩) ∧
    decodeTableWord 16 0x800 = none := by decide

/-- The word placed for the next fetch is the one that runs. -/
theorem test_fetch_word_runs : regsOf (step (State.reset.withFetchWord 16 0x07E)) = some ⟨1#3, 0#16, 0#16, 0#16⟩ := by
  decide

/-! ### ASM, one step each (95_test_vectors.md section 2.2) -/

/-- A-1. -/
theorem test_sof : regsOf (exec .asmSof ready0) = some ⟨1#3, 0#16, 0#16, 0#16⟩ ∧
    outOf (exec .asmSof ready0) = some (.step .none none) := by decide

/-- A-2, the bytes next to the delimiter. -/
theorem test_skip : regsOf (exec (.asmSkip 0x7F#8) ready0) = some ⟨0#3, 0#16, 0#16, 0#16⟩ ∧
    regsOf (exec (.asmSkip 0x7D#8) ready0) = some ⟨0#3, 0#16, 0#16, 0#16⟩ := by decide

/-- A-4: `7E` in the length field is data. -/
theorem test_lenh : regsOf (exec (.asmLenh 0x7E#8) (block 1#3 0#16 0#16 0#16 [])) =
    some ⟨2#3, 32256#16, 0#16, 0#16⟩ := by decide

/-- A-6: length 0. -/
theorem test_lenl_zero : regsOf (exec (.asmLenl 0x00#8) (block 2#3 0#16 0#16 0#16 [])) =
    some ⟨3#3, 0#16, 0#16, 0#16⟩ := by decide

/-- A-7: `L = MAX_PAYLOAD` fits. -/
theorem test_lenl_max : regsOf (exec (.asmLenl 0x00#8) (block 2#3 256#16 0#16 0#16 [])) =
    some ⟨3#3, 256#16, 256#16, 0#16⟩ := by decide

/-- A-8: `L = MAX_PAYLOAD + 1`. -/
theorem test_lenlOvf : regsOf (exec (.asmLenlOvf 0x01#8) (block 2#3 256#16 0#16 0#16 [])) =
      some ⟨0#3, 0#16, 0#16, 0#16⟩ ∧
    outOf (exec (.asmLenlOvf 0x01#8) (block 2#3 256#16 0#16 0#16 [])) = some (.step .invalid none) := by decide

/-- A-10: the largest length. -/
theorem test_lenlOvf_largest : regsOf (exec (.asmLenlOvf 0xFF#8) (block 2#3 65280#16 0#16 0#16 [])) =
    some ⟨0#3, 0#16, 0#16, 0#16⟩ := by decide

/-- A-11. -/
theorem test_pay_first : bufOf (exec (.asmPay 0x92#8) (block 3#3 2#16 2#16 0#16 [])) = some [(0, 0x92#8)] ∧
    regsOf (exec (.asmPay 0x92#8) (block 3#3 2#16 2#16 0#16 [])) = some ⟨3#3, 2#16, 1#16, 1#16⟩ := by decide

/-- A-12: `7E` in the payload is data, and the frame is not emitted yet. -/
theorem test_pay_last : bufOf (exec (.asmPay 0x7E#8) midPayload) = some [(0, 0x92#8), (1, 0x7E#8)] ∧
    outOf (exec (.asmPay 0x7E#8) midPayload) = some (.step .none none) := by decide

/-- A-13. -/
theorem test_ck_match : outOf (exec (.asmCk 0xEF#8) atChecksum) =
      some (.step .complete (some ⟨⟨[0x92#8, 0x7E#8], 0xEF#8⟩, true⟩)) ∧
    regsOf (exec (.asmCk 0xEF#8) atChecksum) = some ⟨0#3, 0#16, 0#16, 0#16⟩ := by decide

/-- A-15: a frame with a wrong checksum is emitted, and `7E` there starts no frame. -/
theorem test_ck_mismatch : outOf (exec (.asmCk 0x7E#8) atChecksum) =
      some (.step .complete (some ⟨⟨[0x92#8, 0x7E#8], 0x7E#8⟩, false⟩)) ∧
    regsOf (exec (.asmCk 0x7E#8) atChecksum) = some ⟨0#3, 0#16, 0#16, 0#16⟩ := by decide

/-- A-17. -/
theorem test_badst_sum : regsOf (exec (.asmBadst 0x00#8) broken) = some ⟨0#3, 0#16, 0#16, 0#16⟩ ∧
    outOf (exec (.asmBadst 0x00#8) broken) = some (.step .invalid none) := by decide

/-- A-20: nothing is written to the buffer. -/
theorem test_badst_length : bufOf (exec (.asmBadst 0x00#8) (block 3#3 300#16 300#16 0#16 [])) = some [] := by decide

/-- A-18, by the step: the `7E` is consumed. -/
theorem test_step_bad_state : regsOf (exec (.asmStep 0x7E#8) (block 4#3 0#16 0#16 0#16 [])) =
    some ⟨0#3, 0#16, 0#16, 0#16⟩ := by decide

/-- A-16, by the step. -/
theorem test_step_empty_frame : outOf (exec (.asmStep 0xFF#8) (block 3#3 0#16 0#16 0#16 [])) =
    some (.step .complete (some ⟨⟨[], 0xFF#8⟩, true⟩)) := by decide

/-- A-F3. -/
theorem test_feed_back_to_back :
    outOf (exec (.asmFeed [0x7E#8, 0x00#8, 0x00#8, 0xFF#8, 0x7E#8, 0x00#8, 0x00#8, 0x00#8]) ready0) =
      some (.feed [⟨⟨[], 0xFF#8⟩, true⟩, ⟨⟨[], 0x00#8⟩, false⟩]) := by decide

/-- A-F8: a delimiter inside the length field. -/
theorem test_feed_delimiters : regsOf (exec (.asmFeed [0x7E#8, 0x7E#8, 0x7E#8]) ready0) =
      some ⟨0#3, 0#16, 0#16, 0#16⟩ ∧
    outOf (exec (.asmFeed [0x7E#8, 0x7E#8, 0x7E#8]) ready0) = some (.feed []) := by decide

/-- R260, and the buffer keeps its bytes (log 11). -/
theorem test_reset : regsOf (exec .asmReset midPayload) = some ⟨0#3, 0#16, 0#16, 0#16⟩ ∧
    bufOf (exec .asmReset midPayload) = some [(0, 0x92#8)] := by decide

/-- A row that the table does not select (R102, log 12). -/
theorem test_row_not_selected : refusalOf (exec .asmSof midPayload) = some (.rowNotSelected .asmSof) ∧
    refusalOf (exec (.decNa ⟨[0x92#8], 0#8⟩) ready0) = some (.rowNotSelected (.decNa ⟨[0x92#8], 0#8⟩)) := by
  decide

/-! ### CKS (section 2.1) -/

/-- K-1, K-6. -/
theorem test_compute : outOf (exec (.cksCompute []) ready0) = some (.cks 0xFF#8) ∧
    outOf (exec (.cksCompute [0xFF#8, 0xFF#8]) ready0) = some (.cks 0x01#8) := by decide

/-- K-15. -/
theorem test_compute_p1 : outOf (exec (.cksCompute p1) ready0) = some (.cks 0xF3#8) := by decide

/-- K-9, K-11. -/
theorem test_verify : outOf (exec (.cksVerify [0x92#8, 0x00#8, 0x13#8] 0x5A#8) ready0) = some (.verify true) ∧
    outOf (exec (.cksVerify [0x92#8, 0x00#8, 0x13#8] 0xDA#8) ready0) = some (.verify false) := by decide

/-! ### DEC (section 2.4) -/

/-- D1. -/
theorem test_dec_p1 : outOf (exec (.decIo ⟨p1, 0xF3#8⟩) ready0) = some (.dec (.ioSample
    ⟨0x00F0#16, 0x0010#16, 0x01#8, #v[some 0x0258#16, none, none, none, none, none, none, none]⟩ addrA)) := by
  decide

/-- D2: no digital field, analog values from offset 16. -/
theorem test_dec_no_digital : outOf (exec (.decIo ⟨head92 ++
      [0x01#8, 0x01#8, 0x00#8, 0x00#8, 0x05#8, 0x03#8, 0xFF#8, 0x01#8, 0x00#8], 0#8⟩) ready0) =
    some (.dec (.ioSample ⟨0x0000#16, 0x0000#16, 0x05#8,
      #v[some 0x03FF#16, none, some 0x0100#16, none, none, none, none, none]⟩ addrA)) := by decide

/-- D12, D13, D14, and `P1` cut to 19 bytes (D15). -/
theorem test_dec_malformed :
    outOf (exec (.decIo ⟨head92 ++ [0x01#8, 0x01#8, 0x00#8, 0x00#8, 0x03#8, 0x02#8, 0x58#8], 0#8⟩) ready0) =
      some (.dec .malformed) ∧
    outOf (exec (.decIo ⟨head92 ++ [0x01#8, 0x01#8, 0x00#8, 0x00#8], 0#8⟩) ready0) = some (.dec .malformed) ∧
    outOf (exec (.decIo ⟨[0x92#8], 0#8⟩) ready0) = some (.dec .malformed) ∧
    outOf (exec (.decIo ⟨p1.take 19, 0#8⟩) ready0) = some (.dec .malformed) := by decide

/-- D16, D18. -/
theorem test_dec_not_applicable :
    outOf (exec (.decNa ⟨[0x97#8, 0x01#8, 0x02#8], 0#8⟩) ready0) = some (.dec .notApplicable) ∧
    outOf (exec (.decNa ⟨[], 0#8⟩) ready0) = some (.dec .notApplicable) := by decide

/-! ### CNV (sections 2.5, 2.6) -/

/-- P-3, P-6, P-13, P-14, P-18 under `half_up`. -/
theorem test_pct_half_up :
    outOf (exec (.cnvPct (some 0x0005#16)) ready0) = some (.pct (some 1#7)) ∧
    outOf (exec (.cnvPct (some 0x000F#16)) ready0) = some (.pct (some 2#7)) ∧
    outOf (exec (.cnvPct (some 0x03E3#16)) ready0) = some (.pct (some 100#7)) ∧
    outOf (exec (.cnvPct (some 0x03ED#16)) ready0) = some (.pct (some 100#7)) ∧
    outOf (exec (.cnvPct (some 0xFE58#16)) ready0) = some (.pct (some 60#7)) := by decide

/-- The block with the other two settings. -/
def otherSettings : State := { ready0 with cfg := ⟨256#16, .halfEven, .real, 7#3⟩ }

/-- P-3, P-6, P-11 under `half_even`. -/
theorem test_pct_half_even :
    outOf (exec (.cnvPct (some 0x0005#16)) otherSettings) = some (.pct (some 0#7)) ∧
    outOf (exec (.cnvPct (some 0x000F#16)) otherSettings) = some (.pct (some 2#7)) ∧
    outOf (exec (.cnvPct (some 0x025D#16)) otherSettings) = some (.pct (some 60#7)) ∧
    outOf (exec (.cnvPct none) otherSettings) = some (.pct none) := by decide

/-- T-1, T-8, T-12. -/
theorem test_temp_trunc :
    outOf (exec (.cnvTemp (some 0x0000#16)) ready0) = some (.temp (some ⟨some 0#11, 0#11, 320#12⟩)) ∧
    outOf (exec (.cnvTemp (some 0x0258#16)) ready0) = some (.temp (some ⟨some 703#11, 703#11, 1585#12⟩)) ∧
    outOf (exec (.cnvTemp (some 0xFFFF#16)) ready0) = some (.temp (some ⟨some 1198#11, 1198#11, 2476#12⟩)) := by
  decide

/-- R197 by hand for `v = 32`: `75 * 32 / 64 = 37.5` and `135 * 32 / 64 = 67.5`, ties to even. -/
theorem test_temp_real : outOf (exec (.cnvTemp (some 0x0020#16)) otherSettings) =
    some (.temp (some ⟨none, 38#11, 388#12⟩)) := by decide

/-! ### BLD (section 2.7) -/

/-- The twenty bytes that B-1 to B-8 share but for the last three. -/
def built (digit param ck : Byte) : Output := .bld (.bytes
  #v[0x7E#8, 0x00#8, 0x10#8, 0x17#8, 0x00#8, 0x00#8, 0x13#8, 0xA2#8, 0x00#8, 0x40#8, 0x52#8, 0x2B#8, 0xAA#8, 0x7D#8,
    0x84#8, 0x02#8, 0x44#8, digit, param, ck])

/-- B-1 to B-4. -/
theorem test_build_d4_d5 :
    outOf (exec (.bldD4High addrA) ready0) = some (built 0x34#8 0x04#8 0x4D#8) ∧
    outOf (exec (.bldD4Low addrA) ready0) = some (built 0x34#8 0x05#8 0x4C#8) ∧
    outOf (exec (.bldD5High addrA) ready0) = some (built 0x35#8 0x04#8 0x4C#8) ∧
    outOf (exec (.bldD5Low addrA) ready0) = some (built 0x35#8 0x05#8 0x4B#8) := by decide

/-- B-5 to B-8. -/
theorem test_build_d6_d7 :
    outOf (exec (.bldD6High addrA) ready0) = some (built 0x36#8 0x04#8 0x4B#8) ∧
    outOf (exec (.bldD6Low addrA) ready0) = some (built 0x36#8 0x05#8 0x4A#8) ∧
    outOf (exec (.bldD7High addrA) ready0) = some (built 0x37#8 0x04#8 0x4A#8) ∧
    outOf (exec (.bldD7Low addrA) ready0) = some (built 0x37#8 0x05#8 0x49#8) := by decide

/-- B-12. -/
theorem test_build_refused :
    outOf (exec (.bldErr 0#2 true addrA) ready0) = some (.bld .invalidArgument) ∧
    outOf (exec (.bldErr 3#2 false addrA) ready0) = some (.bld .invalidArgument) := by decide

/-! ### Witnesses: the hypotheses of every statement are met together -/

theorem midPayload_inv : midPayload.Inv :=
  ⟨by decide, by decide, by decide, by decide⟩

theorem atChecksum_inv : atChecksum.Inv :=
  ⟨by decide, by decide, by decide, by decide⟩

theorem witness_StepKeepsTheInvariant : ∃ s t : State, s.Inv ∧ step s = .next t :=
  ⟨{ midPayload with requests := [[0x00#8, 0x7E#8]] }, _,
    ⟨midPayload_inv.1, midPayload_inv.2, midPayload_inv.3, midPayload_inv.4⟩, rfl⟩

theorem witness_StepRunsTheDecodedInstruction : ∃ (s : State) (record : List Byte) (rest : List (List Byte)) (i : Instr),
    s.requests = record :: rest ∧ decode s.cfg.maxPayload s.regs record = .ok i :=
  ⟨{ midPayload with requests := [[0x00#8, 0x7E#8]] }, [0x00#8, 0x7E#8], [], .asmPay 0x7E#8, rfl, rfl⟩

theorem witness_StepWithoutInstruction : (∃ s : State, s.requests = []) ∧
    (∃ (s : State) (record : List Byte) (rest : List (List Byte)) (why : Reject),
      s.requests = record :: rest ∧ decode s.cfg.maxPayload s.regs record = .error why) :=
  ⟨⟨ready0, rfl⟩, ⟨{ ready0 with requests := [[]] }, [], [], .emptyRecord, rfl, rfl⟩⟩

theorem witness_DecodeOfEncodeIsTheInstruction : ∃ (max : Half) (r : AsmRegs) (i : Instr),
    WellFormed i = true ∧ rowSelected max r i = true :=
  ⟨256#16, midPayload.regs, .asmPay 0x7E#8, by decide⟩

theorem witness_DecodeGivesOnlySelectedRows : ∃ (max : Half) (r : AsmRegs) (record : List Byte) (i : Instr),
    decode max r record = .ok i :=
  ⟨256#16, atChecksum.regs, [0x00#8, 0xEF#8], .asmCk 0xEF#8, rfl⟩

theorem witness_SofStartsAFrame : wfRegs ready0.cfg.maxPayload ready0.regs = true ∧ ready0.regs.st = stReady := by
  decide

theorem witness_SkipDiscardsTheByte :
    wfRegs ready0.cfg.maxPayload ready0.regs = true ∧ ready0.regs.st = stReady ∧ (0x7F#8 : Byte) ≠ 0x7E#8 := by decide

theorem witness_LenhTakesTheHighByte : ∃ s : State, wfRegs s.cfg.maxPayload s.regs = true ∧ s.regs.st = stLengthHigh :=
  ⟨block 1#3 0#16 0#16 0#16 [], by decide⟩

/-- The boundary `L = MAX_PAYLOAD` of vector A-7, and `L = 0` of A-6. -/
theorem witness_LenlTakesTheLowByte :
    (∃ (s : State) (b : Byte), wfRegs s.cfg.maxPayload s.regs = true ∧ s.regs.st = stLengthLow ∧
      256 * (s.regs.len.toNat / 256) + b.toNat = s.cfg.maxPayload.toNat) ∧
    (∃ (s : State) (b : Byte), wfRegs s.cfg.maxPayload s.regs = true ∧ s.regs.st = stLengthLow ∧
      256 * (s.regs.len.toNat / 256) + b.toNat = 0) :=
  ⟨⟨block 2#3 256#16 0#16 0#16 [], 0#8, by decide⟩, ⟨block 2#3 0#16 0#16 0#16 [], 0#8, by decide⟩⟩

/-- The boundary `L = MAX_PAYLOAD + 1` of vector A-8. -/
theorem witness_LenlOvfRefusesTheLength : ∃ (s : State) (b : Byte), wfRegs s.cfg.maxPayload s.regs = true ∧
    s.regs.st = stLengthLow ∧ s.cfg.maxPayload.toNat + 1 = 256 * (s.regs.len.toNat / 256) + b.toNat :=
  ⟨block 2#3 256#16 0#16 0#16 [], 1#8, by decide⟩

/-- The last byte of the largest payload, and a byte in mid-payload. -/
theorem witness_PayStoresTheByte :
    (∃ s : State, wfRegs s.cfg.maxPayload s.regs = true ∧ s.regs.st = stPayload ∧ s.regs.rem ≠ 0#16 ∧
      s.regs.wr.toNat + 1 = s.cfg.maxPayload.toNat) ∧
    wfRegs midPayload.cfg.maxPayload midPayload.regs = true ∧ midPayload.regs.st = stPayload ∧
      midPayload.regs.rem ≠ 0#16 :=
  ⟨⟨block 3#3 256#16 1#16 255#16 [], by decide⟩, by decide⟩

/-- A frame with bytes, and the frame without any. -/
theorem witness_CkEmitsTheFrame :
    (wfRegs atChecksum.cfg.maxPayload atChecksum.regs = true ∧ atChecksum.regs.st = stPayload ∧
      atChecksum.regs.rem = 0#16 ∧ atChecksum.buf.read 1 = some 0x7E#8) ∧
    (∃ s : State, wfRegs s.cfg.maxPayload s.regs = true ∧ s.regs.st = stPayload ∧ s.regs.rem = 0#16 ∧
      s.regs.len = 0#16) :=
  ⟨by decide, ⟨block 3#3 0#16 0#16 0#16 [], by decide⟩⟩

theorem witness_BadstTakesTheInvalidPath : wfRegs broken.cfg.maxPayload broken.regs = false := by decide

/-- Both causes of `Invalid`, vectors A-17 and A-8. -/
theorem witness_InvalidPathSavesNothing :
    (∃ t, exec (.asmStep 0x00#8) broken = .next t ∧ t.out = .step .invalid none) ∧
    (∃ t, exec (.asmStep 0x01#8) (block 2#3 256#16 0#16 0#16 []) = .next t ∧ t.out = .step .invalid none) :=
  ⟨⟨_, rfl, rfl⟩, ⟨_, rfl, rfl⟩⟩

theorem witness_UnselectedRowsAreRefused :
    (∃ (i : Instr) (s : State), rowSelected s.cfg.maxPayload s.regs i = false) ∧
    (∃ f : Frame, f.payload.head? ≠ some 0x92#8) ∧ (∃ f : Frame, f.payload.head? = some 0x92#8) :=
  ⟨⟨.asmSof, midPayload, by decide⟩, ⟨⟨[], 0#8⟩, by decide⟩, ⟨⟨p1, 0#8⟩, by decide⟩⟩

theorem witness_OnlyPayWritesTheBuffer :
    (∃ t, exec (.asmStep 0x7E#8) midPayload = .next t) ∧ (∃ t, exec (.asmFeed [0x7E#8, 0xEF#8]) midPayload = .next t) ∧
    (∃ t, exec .asmReset midPayload = .next t) :=
  ⟨⟨_, rfl⟩, ⟨_, rfl⟩, ⟨_, rfl⟩⟩

theorem witness_EmittedFramesAreWhatWasReceived : ∃ (s t : State) (b : Byte) (tr : Transient) (e : Emitted), s.Inv ∧
    exec (.asmStep b) s = .next t ∧ t.out = .step tr (some e) :=
  ⟨atChecksum, _, 0xEF#8, _, _, atChecksum_inv, rfl, rfl⟩

/-- Two different states that differ in a dead byte. -/
theorem witness_DeadBytesAreNotObservable : ∃ s t : State, s.SameButDead t ∧ s ≠ t :=
  ⟨midPayload, block 3#3 2#16 1#16 1#16 [(0, 0x92#8), (1, 0xAA#8)],
    ⟨rfl, rfl, rfl, rfl, by decide⟩, by decide⟩

theorem witness_FeedIsTheFoldOfSteps : ∃ (s t u : State) (b : Byte) (rest : List Byte) (tr : Transient)
    (fr : Option Emitted) (fs : List Emitted), exec (.asmStep b) s = .next t ∧ t.out = .step tr fr ∧
    exec (.asmFeed rest) t = .next u ∧ u.out = .feed fs :=
  ⟨midPayload, _, _, 0x7E#8, [0xEF#8], _, _, _, rfl, rfl, rfl, rfl⟩

/-- The bound is met: two frames from five bytes. -/
theorem witness_FeedEmitsAtMostAFourthMore : ∃ (s t : State) (chunk : List Byte) (fs : List Emitted), chunk ≠ [] ∧
    exec (.asmFeed chunk) s = .next t ∧ t.out = .feed fs ∧ fs.length = 1 + (chunk.length - 1) / 4 :=
  ⟨atChecksum, _, [0xEF#8, 0x7E#8, 0x00#8, 0x00#8, 0xFF#8], _, by decide, rfl, rfl, rfl⟩

theorem witness_WireFramesAreAssembledInOrder : ∃ (s : State) (frames : List Frame),
    wfRegs s.cfg.maxPayload s.regs = true ∧ s.regs.st = stReady ∧ frames.length = 2 ∧
    (∀ f ∈ frames, f.payload.length ≤ s.cfg.maxPayload.toNat) :=
  ⟨ready0, [⟨[0x92#8, 0x7E#8], 0xEF#8⟩, ⟨[], 0x00#8⟩], by decide, by decide, rfl, by decide⟩

theorem witness_NoiseIsDiscarded : ∃ (s : State) (chunk : List Byte), wfRegs s.cfg.maxPayload s.regs = true ∧
    s.regs.st = stReady ∧ chunk ≠ [] ∧ (∀ b ∈ chunk, b ≠ 0x7E#8) :=
  ⟨ready0, [0x00#8, 0x7D#8, 0x7F#8], by decide⟩

/-- The length of Program 2, one more than `MAX_PAYLOAD`. -/
theorem witness_OversizeLengthIsSurvived : ∃ (s : State) (h l : Byte) (noise : List Byte) (f : Frame),
    wfRegs s.cfg.maxPayload s.regs = true ∧ s.regs.st = stReady ∧
    s.cfg.maxPayload.toNat < 256 * h.toNat + l.toNat ∧ (∀ b ∈ noise, b ≠ 0x7E#8) ∧
    f.payload.length ≤ s.cfg.maxPayload.toNat :=
  ⟨ready0, 0x01#8, 0x01#8, [0xAA#8, 0xBB#8], ⟨[0x17#8, 0x01#8], 0xE7#8⟩, by decide⟩

theorem witness_RunningBytesIsFeedingThem : ∃ (s : State) (chunk : List Byte) (later : List (List Byte)),
    s.requests = byteRequests chunk ++ later ∧ chunk ≠ [] ∧ later ≠ [] :=
  ⟨{ midPayload with requests := byteRequests [0x7E#8, 0xEF#8] ++ [[0x03#8]] }, [0x7E#8, 0xEF#8], [[0x03#8]],
    rfl, by decide, by decide⟩

theorem witness_ComputeIsTheComplementOfTheSum : ∃ bytes other : List Byte, other.Perm bytes ∧ other ≠ bytes :=
  ⟨[0x92#8, 0x00#8], [0x00#8, 0x92#8], by decide, by decide⟩

/-- K-7, with a bit of every place to flip and another order of its bytes. -/
theorem witness_SingleBitFlipsAreDetected : ∃ (s : State) (p : List Byte) (c : Byte) (v : Byte) (q : List Byte),
    exec (.cksCompute p) s = .next { s with out := .cks c } ∧ p[2]? = some v ∧ 7 < 8 ∧ q.Perm p ∧ q ≠ p :=
  ⟨ready0, [0x92#8, 0x00#8, 0x13#8], 0x5A#8, 0x13#8, [0x13#8, 0x92#8, 0x00#8], rfl, rfl, by decide, by decide, by decide⟩

theorem witness_OtherFramesAreNotApplicable : (∃ f : Frame, f.payload = [] ∧ f.payload.head? ≠ some 0x92#8) ∧
    (∃ f : Frame, f.payload ≠ [] ∧ f.payload.head? ≠ some 0x92#8) :=
  ⟨⟨⟨[], 0#8⟩, by decide⟩, ⟨⟨[0x97#8, 0x01#8, 0x02#8], 0#8⟩, by decide⟩⟩

/-- Both sides of the equivalence: a short frame and one of exactly the length it needs. -/
theorem witness_ShortSampleFramesAreMalformed :
    (∃ f : Frame, f.payload.head? = some 0x92#8 ∧ f.payload.length = 15) ∧
    (∃ f : Frame, f.payload.head? = some 0x92#8 ∧ f.payload.length + 1 = neededLength f.payload) ∧
    (∃ f : Frame, f.payload.head? = some 0x92#8 ∧ f.payload.length = neededLength f.payload) :=
  ⟨⟨⟨p1.take 15, 0#8⟩, by decide⟩, ⟨⟨p1.take 19, 0#8⟩, by decide⟩, ⟨⟨p1, 0#8⟩, by decide⟩⟩

theorem witness_SampleFieldsAreDecoded : ∃ f : Frame, f.payload.head? = some 0x92#8 ∧ 16 ≤ f.payload.length ∧
    neededLength f.payload ≤ f.payload.length :=
  ⟨⟨p1, 0xF3#8⟩, by decide⟩

theorem witness_DecodeIgnoresWhatItSkips :
    (∃ p q : List Byte, p.head? = some 0x92#8 ∧ q.head? = some 0x92#8 ∧ p.length = q.length ∧ p ≠ q ∧
      (∀ k, k ≠ 11 → k ≠ 12 → p[k]? = q[k]?)) ∧
    (∃ p surplus : List Byte, p.head? = some 0x92#8 ∧ 16 ≤ p.length ∧ neededLength p ≤ p.length ∧ surplus ≠ []) ∧
    (∃ p : List Byte, p.head? ≠ some 0x92#8) :=
  ⟨⟨p1, p1.set 11 0x41#8, by decide, by decide, by decide, by decide, fun k h _ => by
      rw [List.getElem?_set_ne (Ne.symm h)]⟩,
    ⟨p1, [0xDE#8, 0xAD#8], by decide⟩, ⟨[], by decide⟩⟩

/-- Both settings, at a tie that the two round apart. -/
theorem witness_PercentIsRoundedAndClamped :
    ready0.cfg.roundTies = .halfUp ∧ otherSettings.cfg.roundTies = .halfEven ∧
    (0x0005#16).toNat % 1024 % 10 = 5 ∧ (0x0005#16).toNat % 1024 / 10 % 2 = 0 := by decide

/-- The first and the last of the fifty values. -/
theorem witness_RoundingSettingsDifferOnFiftyValues :
    (∃ (raw : Half) (j : Nat), j = 0 ∧ raw.toNat % 1024 = 20 * j + 5) ∧
    (∃ (raw : Half) (j : Nat), j = 49 ∧ j < 50 ∧ raw.toNat % 1024 = 20 * j + 5) :=
  ⟨⟨5#16, 0, by decide⟩, ⟨985#16, 49, by decide⟩⟩

theorem witness_TemperatureIsTruncatedMillivolts : ready0.cfg.tempMode = .truncInt ∧
    exec (.cnvTemp (some 0x0400#16)) ready0 = exec (.cnvTemp (some 0x0000#16)) ready0 :=
  ⟨rfl, rfl⟩

/-- A tie under `half_even`, and a value that is none. -/
theorem witness_TemperatureInRealMode : otherSettings.cfg.tempMode = .real ∧
    otherSettings.cfg.roundTies = .halfEven ∧ (0x0020#16).toNat % 1024 % 64 = 32 ∧
    (0x0021#16).toNat % 1024 % 64 ≠ 32 := by decide

theorem witness_ConversionsSeeTenBitsAndPresence : ∃ raw other : Half, raw ≠ other ∧
    raw.toNat % 1024 = other.toNat % 1024 :=
  ⟨0x0258#16, 0xFE58#16, by decide⟩

theorem witness_BuildersAnswerTheTwentyBytes : (Instr.bldD7Low addrA, 0x37#8, 0x05#8) ∈
    [(Instr.bldD4High addrA, 0x34#8, 0x04#8), (.bldD4Low addrA, 0x34#8, 0x05#8), (.bldD5High addrA, 0x35#8, 0x04#8),
      (.bldD5Low addrA, 0x35#8, 0x05#8), (.bldD6High addrA, 0x36#8, 0x04#8), (.bldD6Low addrA, 0x36#8, 0x05#8),
      (.bldD7High addrA, 0x37#8, 0x04#8), (.bldD7Low addrA, 0x37#8, 0x05#8)] := by decide

/-- For each clause a pair of builds that meets its premises: B-1 and B-3, B-1 and B-2, B-1 twice, B-2 and B-3. -/
theorem witness_PinAndLevelChangeOneByteAndTheChecksum :
    (∃ f g, exec (bldInstr (4#3 ++ BitVec.ofBool true) addrA) ready0 = .next { ready0 with out := .bld (.bytes f) } ∧
      exec (bldInstr (5#3 ++ BitVec.ofBool true) addrA) ready0 = .next { ready0 with out := .bld (.bytes g) }) ∧
    (∃ f g, exec (bldInstr (4#3 ++ BitVec.ofBool true) addrA) ready0 = .next { ready0 with out := .bld (.bytes f) } ∧
      exec (bldInstr (4#3 ++ BitVec.ofBool false) addrA) ready0 = .next { ready0 with out := .bld (.bytes g) }) ∧
    (∃ f g, exec (bldInstr (4#3 ++ BitVec.ofBool false) addrA) ready0 = .next { ready0 with out := .bld (.bytes f) } ∧
      exec (bldInstr (5#3 ++ BitVec.ofBool true) addrA) ready0 = .next { ready0 with out := .bld (.bytes g) } ∧
      (5#3).toNat = (4#3).toNat + 1) :=
  ⟨⟨_, _, rfl, rfl⟩, ⟨_, _, rfl, rfl⟩, ⟨_, _, rfl, rfl, rfl⟩⟩

theorem witness_BuiltFramesLoopBack : ∃ (s : State) (f : Vector Byte 20), wfRegs s.cfg.maxPayload s.regs = true ∧
    s.regs.st = stReady ∧ 16 ≤ s.cfg.maxPayload.toNat ∧
    exec (bldInstr (4#3 ++ BitVec.ofBool true) addrA) s = .next { s with out := .bld (.bytes f) } :=
  ⟨ready0, _, by decide, by decide, by decide, rfl⟩

theorem witness_StatelessUnitsTouchNothing : ∃ s t u : State,
    exec (.cnvPct (some 0x0258#16)) s = .next t ∧ u.cfg = s.cfg ∧ u ≠ s :=
  ⟨ready0, _, midPayload, rfl, rfl, by decide⟩

theorem witness_OperationsSeeOnlyTheHardware : ∃ (i : Instr) (s t : State) (later : List (List Byte)) (before : Output),
    exec i s = .next t ∧ later ≠ s.requests ∧ before ≠ s.out :=
  ⟨.asmPay 0x7E#8, midPayload, _, [[0x03#8]], .cks 0x00#8, rfl, by decide, by decide⟩

theorem witness_NoStepChangesTheConfiguration : ∃ s t : State, s.requests ≠ [] ∧ step s = .next t :=
  ⟨{ ready0 with requests := [[0x03#8]] }, _, by decide, rfl⟩

end Sys2Proof.Tests
end

section
/-! SUPPORT. The checksum as arithmetic of bytes (40_checksum.md R120, R124), what the two operations of
unit CKS answer, and the proofs of the unit's obligations. -/

namespace Sys2Proof.Machine

/-- Reducing the sum once at the end is reducing after every addition (R120). -/
theorem ofNat_sum_toNat (bytes : List Byte) : BitVec.ofNat 8 (bytes.map BitVec.toNat).sum = bytes.sum := by
  induction bytes with
  | nil => rfl
  | cons b bs ih => simp [BitVec.ofNat_add, ih]

/-- The checksum is the complement of the 8-bit sum (R120). -/
theorem checksum_eq_not_sum (bytes : List Byte) : checksum bytes = ~~~bytes.sum := by
  apply BitVec.eq_of_toNat_eq
  rw [← ofNat_sum_toNat, checksum_toNat, BitVec.toNat_not, BitVec.toNat_ofNat]

theorem checksum_eq_iff_sum_eq (p q : List Byte) : checksum p = checksum q ↔ p.sum = q.sum := by
  rw [checksum_eq_not_sum, checksum_eq_not_sum, BitVec.not_inj]

@[simp] theorem checksum_nil : checksum [] = 0xFF#8 := rfl

theorem checksum_perm {p q : List Byte} (h : q.Perm p) : checksum q = checksum p :=
  (checksum_eq_iff_sum_eq q p).mpr h.sum_eq

/-- A changed byte changes the sum by the difference, so the checksum sees every change of one byte. -/
theorem checksum_set_eq_iff {p : List Byte} {i : Nat} {v : Byte} (hv : p[i]? = some v) (w : Byte) :
    checksum (p.set i w) = checksum p ↔ w = v := by
  obtain ⟨hi, rfl⟩ := List.getElem?_eq_some_iff.mp hv
  rw [checksum_eq_iff_sum_eq, List.sum_set', dif_pos hi, add_eq_left, neg_add_eq_zero, eq_comm]

/-- Flipping one bit of a byte changes the byte (R124). -/
theorem xor_twoPow_ne (v : Byte) {k : Nat} (hk : k < 8) : v ^^^ BitVec.twoPow 8 k ≠ v := by
  intro h
  have hbit : (v ^^^ BitVec.twoPow 8 k).getLsbD k = v.getLsbD k := by rw [h]
  simp [hk] at hbit

/-- CKS.COMPUTE completes with the checksum and changes nothing else (R120). -/
theorem exec_cksCompute (bytes : List Byte) (s : State) :
    exec (.cksCompute bytes) s = .next { s with out := .cks (checksum bytes) } := rfl

/-- CKS.VERIFY completes with the verdict and changes nothing else (R121). -/
theorem exec_cksVerify (bytes : List Byte) (claimed : Byte) (s : State) :
    exec (.cksVerify bytes claimed) s = .next { s with out := .verify (verifies bytes claimed) } := rfl

theorem exec_cksCompute_eq_iff (bytes : List Byte) (c : Byte) (s : State) :
    exec (.cksCompute bytes) s = .next { s with out := .cks c } ↔ checksum bytes = c := by
  simp [exec_cksCompute]

theorem exec_cksVerify_true {bytes : List Byte} {claimed : Byte} (s : State) (h : checksum bytes = claimed) :
    exec (.cksVerify bytes claimed) s = .next { s with out := .verify true } := by
  rw [exec_cksVerify, (verifies_iff bytes claimed).mpr h]

theorem exec_cksVerify_false {bytes : List Byte} {claimed : Byte} (s : State) (h : checksum bytes ≠ claimed) :
    exec (.cksVerify bytes claimed) s = .next { s with out := .verify false } := by
  rw [exec_cksVerify, Bool.eq_false_iff.mpr (mt (verifies_iff bytes claimed).mp h)]

/-- Two flips can cancel (R124): bit 0 set in one byte and cleared in the other. -/
theorem checksum_cancelling_flips :
    checksum (([0#8, 1#8].set 0 (0#8 ^^^ 1#8)).set 1 (1#8 ^^^ 1#8)) = checksum [0#8, 1#8] := by decide

/-- Settles O37: a flip changes its byte, and the checksum sees every change of one byte. -/
theorem singleBitFlipsAreDetected : Obligations.SingleBitFlipsAreDetected := by
  refine ⟨fun s p c hc => ?_, [0#8, 1#8], 0, 1, 0#8, 1#8, _, by decide, rfl, rfl, rfl,
    checksum_cancelling_flips⟩
  obtain rfl : checksum p = c := (exec_cksCompute_eq_iff p c s).mp hc
  refine ⟨exec_cksVerify_true s rfl, fun i v k hv hk => ?flipInPayload, fun k hk => ?flipInChecksum,
    fun q hq => exec_cksVerify_true s (checksum_perm hq)⟩
  case flipInPayload =>
    exact exec_cksVerify_false s (mt (checksum_set_eq_iff hv _).mp (xor_twoPow_ne v hk))
  case flipInChecksum =>
    exact exec_cksVerify_false s (xor_twoPow_ne (checksum p) hk).symm

/-- Settles O34: the answer is the checksum, the complement of the 8-bit sum, which no order of the bytes changes. -/
theorem computeIsTheComplementOfTheSum : Obligations.ComputeIsTheComplementOfTheSum := by
  intro s bytes
  refine ⟨checksum bytes, exec_cksCompute bytes s, checksum_toNat bytes, ?complement, ?empty, ?permuted⟩
  case complement => rw [ofNat_sum_toNat, checksum_eq_not_sum]
  case empty => rintro rfl; exact checksum_nil
  case permuted =>
    intro other h
    rw [exec_cksCompute, exec_cksCompute, checksum_perm h]

/-- Settles O35: both sides say that the checksum of the bytes is the claimed byte. -/
theorem verifyComparesWithCompute : Obligations.VerifyComparesWithCompute := by
  intro s bytes claimed
  refine ⟨verifies bytes claimed, exec_cksVerify bytes claimed s, ?compute, ?empty⟩
  case compute => rw [verifies_iff, exec_cksCompute_eq_iff]
  case empty =>
    rintro rfl
    rw [verifies_iff, checksum_nil, eq_comm]

end Sys2Proof.Machine
end

section
/-! SUPPORT. The arm a byte takes in each kind of well-formed state (30_encoding.md R86), what the step
answers there, and the proofs of the obligations of unit ASM (41_assembler.md). -/

namespace Sys2Proof.Machine

/-! ### The arm a byte takes -/

section
variable {max : Half} {r : AsmRegs} {b : Byte}

theorem armOf_eq_skip (hw : wfRegs max r = true) (hst : r.st = stReady) (hb : b ≠ 0x7E#8) :
    armOf max r b = .skip := by
  simp [armOf, hw, hst, hb]

theorem armOf_eq_lenl (hw : wfRegs max r = true) (hst : r.st = stLengthLow)
    (hl : (declaredLength r b).toNat ≤ max.toNat) : armOf max r b = .lenl := by
  have hfits : exceeds max (declaredLength r b) = false := by simp [exceeds, hl]
  simp [armOf, hw, hst, hfits]

theorem armOf_eq_pay (hw : wfRegs max r = true) (hst : r.st = stPayload) (hr : r.rem ≠ 0#16) :
    armOf max r b = .pay := by
  simp [armOf, hw, hst, hr]

theorem armOf_eq_ck (hw : wfRegs max r = true) (hst : r.st = stPayload) (hr : r.rem = 0#16) :
    armOf max r b = .ck := by
  simp [armOf, hw, hst, hr]

/-- Before the low length byte no payload byte is counted (10_state.md R26). -/
theorem wr_eq_zero_of_lengthLow (hw : wfRegs max r = true) (hst : r.st = stLengthLow) : r.wr = 0#16 := by
  rcases (wfRegs_iff max r).1 hw with ⟨h, -⟩ | ⟨h, -⟩ | ⟨-, -, -, hwr⟩ | ⟨h, -⟩
  · simp [hst] at h
  · simp [hst] at h
  · exact hwr
  · simp [hst, stLengthLow, stPayload] at h

/-- The registers after a declared length of 0: the checksum is due at once (41_assembler.md R134). -/
theorem wfRegs_emptyPayload (max : Half) : wfRegs max ⟨stPayload, 0#16, 0#16, 0#16⟩ = true := by
  simp [wfRegs_iff]

end

/-! ### What the step answers -/

section
variable {max : Half} {a : AsmState} {b : Byte}

theorem asmStep_skip (hw : wfRegs max a.regs = true) (hst : a.regs.st = stReady) (hb : b ≠ 0x7E#8) :
    asmStep max b a = some (quietStep a.regs a) := by
  rw [asmStep, armOf_eq_skip hw hst hb, armSkip]

theorem asmStep_lenl (hw : wfRegs max a.regs = true) (hst : a.regs.st = stLengthLow)
    (hl : (declaredLength a.regs b).toNat ≤ max.toNat) :
    asmStep max b a = some (armLenl b a) := by
  rw [asmStep, armOf_eq_lenl hw hst hl]

/-- The store of a payload byte is inside the buffer (41_assembler.md R136). -/
theorem asmStep_pay (hw : wfRegs max a.regs = true) (hst : a.regs.st = stPayload) (hr : a.regs.rem ≠ 0#16) :
    asmStep max b a = some (quietStep { a.regs with wr := a.regs.wr + 1#16, rem := a.regs.rem - 1#16 }
      (a.withBuf (a.buf.write a.regs.wr.toNat b))) := by
  obtain ⟨hin, -, -⟩ := wr_inside hw hst hr
  rw [asmStep, armOf_eq_pay hw hst hr, armPay, bufWrite, if_pos hin, Option.map_some]

theorem asmStep_ck (hw : wfRegs max a.regs = true) (hst : a.regs.st = stPayload) (hr : a.regs.rem = 0#16) :
    asmStep max b a = some (armCk b a) := by
  rw [asmStep, armOf_eq_ck hw hst hr]

/-- Bytes that are no start delimiter leave a Ready block as it is (41_assembler.md R146). -/
theorem asmFeed_noise {chunk : List Byte} (hw : wfRegs max a.regs = true) (hst : a.regs.st = stReady)
    (hn : ∀ b ∈ chunk, b ≠ 0x7E#8) : asmFeed max chunk a = some ([], a) := by
  induction chunk with
  | nil => rfl
  | cons b rest ih =>
    obtain ⟨hb, hrest⟩ := List.forall_mem_cons.1 hn
    have hstays : (quietStep a.regs a).asm = a := rfl
    rw [asmFeed_cons (asmStep_skip hw hst hb), hstays, ih hrest]
    rfl

/-- Where the checksum is due, any one byte completes a frame (41_assembler.md R137). -/
theorem asmFeed_ck (hw : wfRegs max a.regs = true) (hst : a.regs.st = stPayload) (hr : a.regs.rem = 0#16)
    (b : Byte) : asmFeed max [b] a =
      some ([emitted ⟨bufRead a.buf a.regs.len.toNat, b⟩], a.withRegs readyRegs) := by
  rw [asmFeed_cons (asmStep_ck hw hst hr)]
  rfl

end

/-- The row of the arm that a byte takes and ASM.STEP of the byte complete alike (41_assembler.md R130). -/
theorem exec_arm_and_step {arm : AsmArm} {b : Byte} {s : State} {ans : StepAnswer} (ha : armAt b s = arm)
    (h : asmStep s.cfg.maxPayload b s.toAsmState = some ans) :
    exec (armInstr b arm) s = .next (s.afterStep ans) ∧ exec (.asmStep b) s = .next (s.afterStep ans) := by
  have hstep : exec (.asmStep b) s = .next (s.afterStep ans) := execAsmStep_eq h
  exact ⟨by rw [← ha, exec_armInstr]; exact hstep, hstep⟩

/-! ### The obligations -/

/-- Settles O16: `wr` is inside the buffer, so the store happens, and neither counter is at an end of its range. -/
theorem payStoresTheByte : Obligations.PayStoresTheByte := by
  intro s b hw hst hr
  obtain ⟨hin, hsum, hpos⟩ := wr_inside hw hst hr
  obtain ⟨hpay, hstep⟩ := exec_arm_and_step (armOf_eq_pay hw hst hr) (asmStep_pay (b := b) hw hst hr)
  have hwr : (s.regs.wr + 1#16).toNat = s.regs.wr.toNat + 1 := by bv_omega
  have hrem : (s.regs.rem - 1#16).toNat + 1 = s.regs.rem.toNat := by bv_omega
  exact ⟨_, hpay, hstep, hin, Memory.read_write_same .., fun _ => Memory.read_write_other s.buf b,
    hwr, hrem, hst, rfl, rfl, rfl, rfl⟩

/-- A block that has just read a length of 0, so that the checksum is due. -/
def emptyFrameDue : State := { State.reset with regs := ⟨stPayload, 0#16, 0#16, 0#16⟩ }

/-- Settles O31: every byte of the noise is skipped; where a checksum is due, one such byte completes a frame. -/
theorem noiseIsDiscarded : Obligations.NoiseIsDiscarded := by
  refine ⟨fun s chunk hw hst hn => execAsmFeed_eq (asmFeed_noise hw hst hn), ?elsewhere⟩
  case elsewhere =>
    have hw : wfRegs emptyFrameDue.cfg.maxPayload emptyFrameDue.regs = true := wfRegs_emptyPayload _
    exact ⟨emptyFrameDue, _, [0xFF#8], _, hw, stPayload_ne_stReady, by decide,
      execAsmFeed_eq (asmFeed_ck hw rfl rfl 0xFF#8), rfl⟩

/-- Settles O12: the byte takes ASM.SKIP, which writes the registers back as they are. -/
theorem skipDiscardsTheByte : Obligations.SkipDiscardsTheByte := fun _ _ hw hst hb =>
  exec_arm_and_step (armOf_eq_skip hw hst hb) (asmStep_skip hw hst hb)

/-- Settles O14: the length is `declaredLength`; `wr` is 0 already, and after a length of 0 the checksum is due. -/
theorem lenlTakesTheLowByte : Obligations.LenlTakesTheLowByte := by
  intro s b hw hst hl
  have hlen := declaredLength_toNat s.regs b
  have hfits : (declaredLength s.regs b).toNat ≤ s.cfg.maxPayload.toNat := hlen ▸ hl
  obtain ⟨hlenl, hstep⟩ := exec_arm_and_step (armOf_eq_lenl hw hst hfits) (asmStep_lenl hw hst hfits)
  refine ⟨declaredLength s.regs b, hlen, ?loaded, hstep.trans hlenl.symm, ?emptyFrame⟩
  case loaded =>
    rw [← wr_eq_zero_of_lengthLow hw hst]
    exact hlenl
  case emptyFrame =>
    intro hzero ck
    rw [hzero]
    exact armOf_eq_ck (wfRegs_emptyPayload _) rfl rfl

end Sys2Proof.Machine
end

section
/-! SUPPORT. What every instruction does, said once: an arm, one of the three operations of ASM, or a row of
a stateless unit; and the obligations that follow from it for every row at once. -/

namespace Sys2Proof.Machine

/-! ### The operations of ASM in a run -/

/-- ASM.STEP in a run completes with what the hardware answers (41_assembler.md R130). -/
theorem execAsmStep_next (b : Byte) (s : State) :
    ∃ ans, asmStep s.cfg.maxPayload b s.toAsmState = some ans ∧ execAsmStep b s = .next (s.afterStep ans) := by
  obtain ⟨ans, h⟩ := asmStep_total s.cfg.maxPayload b s.toAsmState
  exact ⟨ans, h, execAsmStep_eq h⟩

/-- ASM.FEED in a run completes with what the hardware answers (41_assembler.md R139). -/
theorem execAsmFeed_next (chunk : List Byte) (s : State) :
    ∃ fs a, asmFeed s.cfg.maxPayload chunk s.toAsmState = some (fs, a) ∧
      execAsmFeed chunk s = .next ((s.withAsm a).withOut (.feed fs)) := by
  obtain ⟨⟨fs, a⟩, h⟩ := asmFeed_total s.cfg.maxPayload chunk s.toAsmState
  exact ⟨fs, a, h, execAsmFeed_eq h⟩

theorem execAsmStep_eq_next {b : Byte} {s t : State} (h : execAsmStep b s = .next t) :
    ∃ ans, asmStep s.cfg.maxPayload b s.toAsmState = some ans ∧ t = s.afterStep ans := by
  obtain ⟨ans, hans, heq⟩ := execAsmStep_next b s
  exact ⟨ans, hans, Host.Outcome.next.inj (h.symm.trans heq)⟩

theorem execAsmFeed_eq_next {chunk : List Byte} {s t : State} (h : execAsmFeed chunk s = .next t) :
    ∃ fs a, asmFeed s.cfg.maxPayload chunk s.toAsmState = some (fs, a) ∧ t = (s.withAsm a).withOut (.feed fs) := by
  obtain ⟨fs, a, hfeed, heq⟩ := execAsmFeed_next chunk s
  exact ⟨fs, a, hfeed, Host.Outcome.next.inj (h.symm.trans heq)⟩

theorem execAsmReset_eq (s : State) :
    execAsmReset s = .next ((s.withAsm (s.toAsmState.withRegs readyRegs)).withOut (.step .none none)) := rfl

/-- A row of ASM is the step of its byte where the table selects it, and is refused elsewhere (30_encoding.md
R102; log 12). ASM.SOF has no operand: its byte is the delimiter. -/
theorem exec_armInstr_eq_ite {arm : AsmArm} {b : Byte} (hsof : arm = .sof → b = 0x7E#8) (s : State) :
    exec (armInstr b arm) s =
      if armAt b s = arm then execAsmStep b s else .refused (.rowNotSelected (armInstr b arm)) := by
  split
  · next h => rw [← exec_armInstr, h]
  · next h =>
    cases arm with
    | sof => obtain rfl := hsof rfl; exact asRow_refused h _
    | _ => exact asRow_refused h _

/-- An arm that completes is the step of a byte that takes it. -/
theorem exec_armInstr_eq_next {arm : AsmArm} {b : Byte} {s t : State} (hsof : arm = .sof → b = 0x7E#8)
    (h : exec (armInstr b arm) s = .next t) : armAt b s = arm ∧ execAsmStep b s = .next t := by
  rw [exec_armInstr_eq_ite hsof] at h
  split at h
  · next harm => exact ⟨harm, h⟩
  · cases h

/-! ### Every instruction -/

/-- A row of a unit without state, which no registers unselect: its answer depends on the configuration alone,
or its operand is not the row's and it is refused. -/
def IsStateless (i : Instr) : Prop :=
  (∀ max r, rowSelected max r i = true) ∧
  ((∃ o : Params → Output, ∀ s, exec i s = .next (s.withOut (o s.cfg))) ∨
    (WellFormed i = false ∧ ∀ s, exec i s = .refused (.rowNotSelected i)))

/-- The operand of DEC.DECODE.IO is of its type, or the row is refused (30_encoding.md R87). -/
theorem isStateless_decIo (f : Frame) : IsStateless (.decIo f) := by
  refine ⟨fun _ _ => rfl, ?_⟩
  by_cases h : f.isIo = true
  · exact .inl ⟨fun _ => .dec (decodeIoSample f.payload), fun s => if_pos h⟩
  · exact .inr ⟨by simp [WellFormed, h], fun s => if_neg h⟩

theorem isStateless_decNa (f : Frame) : IsStateless (.decNa f) := by
  refine ⟨fun _ _ => rfl, ?_⟩
  by_cases h : f.isIo = true
  · exact .inr ⟨by simp [WellFormed, h], fun s => if_pos h⟩
  · exact .inl ⟨fun _ => .dec .notApplicable, fun s => if_neg h⟩

/-- The kinds of instructions: an arm with the byte that takes it (ASM.SOF has no operand, its byte is the
delimiter), an operation of ASM called by name, or a row of a stateless unit. -/
inductive InstrKind : Instr → Prop
  | arm {arm : AsmArm} {b : Byte} (hsof : arm = .sof → b = 0x7E#8) : InstrKind (armInstr b arm)
  | step (b : Byte) : InstrKind (.asmStep b)
  | feed (chunk : List Byte) : InstrKind (.asmFeed chunk)
  | reset : InstrKind .asmReset
  | stateless {i : Instr} (h : IsStateless i) : InstrKind i

theorem instrKind_of_answer {i : Instr} (o : Params → Output) (hsel : ∀ max r, rowSelected max r i = true)
    (h : ∀ s, exec i s = .next (s.withOut (o s.cfg))) : InstrKind i := .stateless ⟨hsel, .inl ⟨o, h⟩⟩

/-- Every instruction is of one of the kinds. -/
theorem instrKind (i : Instr) : InstrKind i := by
  cases i with
  | asmBadst b => exact .arm (arm := .badst) nofun
  | asmSof => exact .arm (arm := .sof) fun _ => rfl
  | asmSkip b => exact .arm (arm := .skip) nofun
  | asmLenh b => exact .arm (arm := .lenh) nofun
  | asmLenl b => exact .arm (arm := .lenl) nofun
  | asmLenlOvf b => exact .arm (arm := .lenlOvf) nofun
  | asmPay b => exact .arm (arm := .pay) nofun
  | asmCk b => exact .arm (arm := .ck) nofun
  | asmStep b => exact .step b
  | asmFeed chunk => exact .feed chunk
  | asmReset => exact .reset
  | decIo f => exact .stateless (isStateless_decIo f)
  | decNa f => exact .stateless (isStateless_decNa f)
  | bldD4High dest => exact instrKind_of_answer (fun _ => .bld (build dest 4#3 true)) (fun _ _ => rfl) fun _ => rfl
  | bldD4Low dest => exact instrKind_of_answer (fun _ => .bld (build dest 4#3 false)) (fun _ _ => rfl) fun _ => rfl
  | bldD5High dest => exact instrKind_of_answer (fun _ => .bld (build dest 5#3 true)) (fun _ _ => rfl) fun _ => rfl
  | bldD5Low dest => exact instrKind_of_answer (fun _ => .bld (build dest 5#3 false)) (fun _ _ => rfl) fun _ => rfl
  | bldD6High dest => exact instrKind_of_answer (fun _ => .bld (build dest 6#3 true)) (fun _ _ => rfl) fun _ => rfl
  | bldD6Low dest => exact instrKind_of_answer (fun _ => .bld (build dest 6#3 false)) (fun _ _ => rfl) fun _ => rfl
  | bldD7High dest => exact instrKind_of_answer (fun _ => .bld (build dest 7#3 true)) (fun _ _ => rfl) fun _ => rfl
  | bldD7Low dest => exact instrKind_of_answer (fun _ => .bld (build dest 7#3 false)) (fun _ _ => rfl) fun _ => rfl
  | bldErr pin level dest =>
    exact instrKind_of_answer (fun _ => .bld (build dest (pin.setWidth 3) level)) (fun _ _ => rfl) fun _ => rfl
  | cksCompute bytes => exact instrKind_of_answer (fun _ => .cks (checksum bytes)) (fun _ _ => rfl) fun _ => rfl
  | cksVerify bytes claimed =>
    exact instrKind_of_answer (fun _ => .verify (verifies bytes claimed)) (fun _ _ => rfl) fun _ => rfl
  | cnvPct raw =>
    exact instrKind_of_answer (fun cfg => .pct (raw.map (percent cfg.roundTies))) (fun _ _ => rfl) fun _ => rfl
  | cnvTemp raw =>
    exact instrKind_of_answer (fun cfg => .temp (raw.map (temperature cfg))) (fun _ _ => rfl) fun _ => rfl

/-- All that an instruction can do when it completes: a step, a feed or a reset of the hardware, or an answer
that leaves the hardware alone. -/
theorem exec_next_cases {i : Instr} {s t : State} (h : exec i s = .next t) :
    (∃ b ans, asmStep s.cfg.maxPayload b s.toAsmState = some ans ∧ t = s.afterStep ans) ∨
    (∃ chunk fs a, asmFeed s.cfg.maxPayload chunk s.toAsmState = some (fs, a) ∧
      t = (s.withAsm a).withOut (.feed fs)) ∨
    t = (s.withAsm (s.toAsmState.withRegs readyRegs)).withOut (.step .none none) ∨
    (∃ o, t = s.withOut o) := by
  rcases instrKind i with @⟨arm, b, hsof⟩ | ⟨b⟩ | ⟨chunk⟩ | _ | @⟨_, -, ⟨o, ho⟩ | ⟨-, hr⟩⟩
  · exact .inl ⟨b, execAsmStep_eq_next (exec_armInstr_eq_next hsof h).2⟩
  · exact .inl ⟨b, execAsmStep_eq_next h⟩
  · exact .inr (.inl ⟨chunk, execAsmFeed_eq_next h⟩)
  · exact .inr (.inr (.inl (Host.Outcome.next.inj (h.symm.trans (execAsmReset_eq s)))))
  · exact .inr (.inr (.inr ⟨_, Host.Outcome.next.inj (h.symm.trans (ho s))⟩))
  · cases h.symm.trans (hr s)

/-- No instruction writes the configuration or the requests to come (10_state.md R27; log 23). -/
theorem exec_frame {i : Instr} {s t : State} (h : exec i s = .next t) :
    t.cfg = s.cfg ∧ t.requests = s.requests := by
  rcases exec_next_cases h with ⟨_, _, -, rfl⟩ | ⟨_, _, _, -, rfl⟩ | rfl | ⟨_, rfl⟩ <;> exact ⟨rfl, rfl⟩

/-- What an instruction answers comes from the hardware's state, the configuration and the operands. -/
theorem exec_other_run {i : Instr} {s t : State} (h : exec i s = .next t) (later : List (List Byte))
    (before : Output) : exec i ((s.withRequests later).withOut before) = .next (t.withRequests later) := by
  have step : ∀ b, execAsmStep b s = .next t →
      execAsmStep b ((s.withRequests later).withOut before) = .next (t.withRequests later) := by
    intro b hb
    obtain ⟨ans, hans, rfl⟩ := execAsmStep_eq_next hb
    exact execAsmStep_eq hans
  rcases instrKind i with @⟨arm, b, hsof⟩ | ⟨b⟩ | ⟨chunk⟩ | _ | @⟨_, -, ⟨o, ho⟩ | ⟨-, hr⟩⟩
  · obtain ⟨harm, hstep⟩ := exec_armInstr_eq_next hsof h
    have harm' : armAt b ((s.withRequests later).withOut before) = arm := harm
    rw [exec_armInstr_eq_ite hsof, if_pos harm', step b hstep]
  · exact step b h
  · obtain ⟨fs, a, hfeed, rfl⟩ := execAsmFeed_eq_next h
    exact execAsmFeed_eq hfeed
  · cases h
    rfl
  · cases h.symm.trans (ho s)
    exact ho _
  · cases h.symm.trans (hr s)

/-- A row of a stateless unit changes nothing but the outputs, and answers the same wherever the
configuration is the same (20_memory.md R67). -/
theorem IsStateless.touches_nothing {i : Instr} (hi : IsStateless i) {s t u : State} (h : exec i s = .next t)
    (hcfg : u.cfg = s.cfg) : t = s.withOut t.out ∧ exec i u = .next (u.withOut t.out) := by
  obtain ⟨-, ⟨o, ho⟩ | ⟨-, hr⟩⟩ := hi
  · cases h.symm.trans (ho s)
    exact ⟨rfl, by rw [ho, hcfg, State.withOut_out]⟩
  · cases h.symm.trans (hr s)

/-! ### The obligations -/

/-- Settles O53: an instruction reads the hardware, the configuration and its operands, and writes the
hardware and the results. -/
theorem operationsSeeOnlyTheHardware : Obligations.OperationsSeeOnlyTheHardware := by
  intro i s t later before h
  obtain ⟨hcfg, hreq⟩ := exec_frame h
  exact ⟨hcfg, hreq, exec_other_run h later before⟩

/-- Settles O51: every row outside ASM is stateless. -/
theorem statelessUnitsTouchNothing : Obligations.StatelessUnitsTouchNothing := by
  intro i s t u hi h hcfg
  have hstateless : IsStateless i := by
    rcases instrKind i with @⟨arm, b, -⟩ | ⟨b⟩ | ⟨chunk⟩ | _ | @⟨_, hs⟩
    · cases arm <;> exact hi.elim
    · exact hi.elim
    · exact hi.elim
    · exact hi.elim
    · exact hs
  exact hstateless.touches_nothing h hcfg

/-- Settles O24: the reset is one update of the registers. -/
theorem resetClearsTheRegisters : Obligations.ResetClearsTheRegisters := execAsmReset_eq

/-- Settles O5: both clauses are the branches of `step` that run no instruction. -/
theorem stepWithoutInstruction : Obligations.StepWithoutInstruction := by
  refine ⟨fun s hnone => ?idle, fun s record rest why hreq hbad => ?rejected⟩
  case idle =>
    simp [step, hnone, State.withOut]
  case rejected => simp [step, hreq, State.decodes, hbad]

/-- Settles O4: the decoder reads the registers and the capacity that the step finds. -/
theorem stepRunsTheDecodedInstruction : Obligations.StepRunsTheDecodedInstruction := by
  intro s record rest i hreq hok
  simp [step, hreq, State.decodes, hok, State.withRequests]

/-- All that a step of a run can do: idle, run the decoded instruction, or refuse a record. -/
theorem step_cases (s : State) :
    (s.requests = [] ∧ step s = .next (s.withOut .idle)) ∨
    (∃ record rest i, s.requests = record :: rest ∧ decode s.cfg.maxPayload s.regs record = .ok i ∧
      step s = exec i (s.withRequests rest)) ∨
    (∃ record rest why, s.requests = record :: rest ∧
      decode s.cfg.maxPayload s.regs record = .error why ∧ step s = .refused (.badRequest why)) := by
  cases hreq : s.requests with
  | nil => exact .inl ⟨rfl, stepWithoutInstruction.1 s hreq⟩
  | cons record rest =>
    cases hdec : decode s.cfg.maxPayload s.regs record with
    | ok i => exact .inr (.inl ⟨record, rest, i, rfl, hdec, stepRunsTheDecodedInstruction s _ _ i hreq hdec⟩)
    | error why =>
      exact .inr (.inr ⟨record, rest, why, rfl, hdec, stepWithoutInstruction.2 s _ _ why hreq hdec⟩)

/-- Settles O52: an idle step has no request to take, and an instruction writes neither field. -/
theorem noStepChangesTheConfiguration : Obligations.NoStepChangesTheConfiguration := by
  intro s t h
  rcases step_cases s with ⟨hreq, hidle⟩ | ⟨record, rest, i, hreq, -, hexec⟩ | ⟨_, _, _, -, -, hbad⟩
  · cases h.symm.trans hidle
    exact ⟨rfl, by simp [hreq]⟩
  · obtain ⟨hcfg, hrest⟩ := exec_frame (hexec.symm.trans h)
    exact ⟨hcfg, by simp [hrest, hreq]⟩
  · cases h.symm.trans hbad

end Sys2Proof.Machine
end

section
/-! SUPPORT. The dispatch of ASM (30_encoding.md R86, R102): the condition under which each arm is taken, that
the table's match, mask and condition say the same, and the obligations about selecting a row. -/

namespace Sys2Proof.Machine

/-! ### The condition of each arm -/

/-- What R86 asks of the registers and the byte for an arm to be taken. -/
def ArmApplies (max : Half) (r : AsmRegs) (b : Byte) : AsmArm → Prop
  | .badst => wfRegs max r = false
  | .sof => wfRegs max r = true ∧ r.st = stReady ∧ b = 0x7E#8
  | .skip => wfRegs max r = true ∧ r.st = stReady ∧ b ≠ 0x7E#8
  | .lenh => wfRegs max r = true ∧ r.st = stLengthHigh
  | .lenl => wfRegs max r = true ∧ r.st = stLengthLow ∧ (declaredLength r b).toNat ≤ max.toNat
  | .lenlOvf => wfRegs max r = true ∧ r.st = stLengthLow ∧ max.toNat < (declaredLength r b).toNat
  | .pay => wfRegs max r = true ∧ r.st = stPayload ∧ r.rem ≠ 0#16
  | .ck => wfRegs max r = true ∧ r.st = stPayload ∧ r.rem = 0#16

section
variable {max : Half} {r : AsmRegs} {b : Byte}

theorem armOf_eq_badst (hw : wfRegs max r = false) : armOf max r b = .badst := by
  simp [armOf, hw]

theorem armOf_eq_sof (hw : wfRegs max r = true) (hst : r.st = stReady) (hb : b = 0x7E#8) :
    armOf max r b = .sof := by
  simp [armOf, hw, hst, hb]

theorem armOf_eq_lenh (hw : wfRegs max r = true) (hst : r.st = stLengthHigh) : armOf max r b = .lenh := by
  simp [armOf, hw, hst]

theorem armOf_eq_lenlOvf (hw : wfRegs max r = true) (hst : r.st = stLengthLow)
    (hl : max.toNat < (declaredLength r b).toNat) : armOf max r b = .lenlOvf := by
  have hover : exceeds max (declaredLength r b) = true := (exceeds_iff _ _).2 hl
  simp [armOf, hw, hst, hover]

/-- The arm that is taken is the one whose condition holds: the conditions are exhaustive and exclusive. -/
theorem armOf_eq_iff (arm : AsmArm) : armOf max r b = arm ↔ ArmApplies max r b arm := by
  constructor
  · rintro rfl
    rcases armOf_cases max r b with
      ⟨h, ha⟩ | ⟨h, ha⟩ | ⟨h, ha⟩ | ⟨h, ha⟩ | ⟨h, ha⟩ | ⟨h, ha⟩ | ⟨h, ha⟩ | ⟨h, ha⟩ <;> rw [h] <;> exact ha
  · intro h
    cases arm with
    | badst => exact armOf_eq_badst h
    | sof => exact armOf_eq_sof h.1 h.2.1 h.2.2
    | skip => exact armOf_eq_skip h.1 h.2.1 h.2.2
    | lenh => exact armOf_eq_lenh h.1 h.2
    | lenl => exact armOf_eq_lenl h.1 h.2.1 h.2.2
    | lenlOvf => exact armOf_eq_lenlOvf h.1 h.2.1 h.2.2
    | pay => exact armOf_eq_pay h.1 h.2.1 h.2.2
    | ck => exact armOf_eq_ck h.1 h.2.1 h.2.2

end

/-! ### The rows of the table -/

/-- A state and a byte are two parts of a selector (R86). -/
theorem selector_inj {st st' : BitVec 3} {b b' : Byte} : st ++ b = st' ++ b' ↔ st = st' ∧ b = b' := by
  refine ⟨fun h => ⟨?state, ?byte⟩, fun ⟨hst, hb⟩ => by rw [hst, hb]⟩
  case state =>
    exact BitVec.extractLsb'_append_eq_left.symm.trans
      ((congrArg (BitVec.extractLsb' 8 3) h).trans BitVec.extractLsb'_append_eq_left)
  case byte =>
    exact BitVec.extractLsb'_append_eq_right.symm.trans
      ((congrArg (BitVec.extractLsb' 0 8) h).trans BitVec.extractLsb'_append_eq_right)

section
variable (max : Half) (r : AsmRegs) (b : Byte)

/-- A row whose mask covers `st` alone looks at `st` and its condition. -/
theorem hits_stMask (arm : AsmArm) (st : BitVec 3) (priority : Nat) :
    AsmRow.hits max r b ⟨arm, st ++ 0#8, 0x700#11, priority⟩ = true ↔ r.st = st ∧ armCond max r b arm = true := by
  have hmask : asmSelector r b &&& 0x700#11 = r.st ++ 0#8 := by
    have hand := BitVec.and_append (x₁ := r.st) (y₁ := b) (x₂ := BitVec.allOnes 3) (y₂ := 0#8)
    rwa [BitVec.and_allOnes, BitVec.and_zero] at hand
  simp only [AsmRow.hits, Bool.and_eq_true, beq_iff_eq, hmask, selector_inj, and_true]

/-- A row whose mask covers the whole selector looks at `st`, the byte and its condition. -/
theorem hits_fullMask (arm : AsmArm) (st : BitVec 3) (d : Byte) (priority : Nat) :
    AsmRow.hits max r b ⟨arm, st ++ d, 0x7FF#11, priority⟩ = true ↔
      (r.st = st ∧ b = d) ∧ armCond max r b arm = true := by
  have hmask : asmSelector r b &&& 0x7FF#11 = r.st ++ b := BitVec.and_allOnes
  simp only [AsmRow.hits, Bool.and_eq_true, beq_iff_eq, hmask, selector_inj]

/-- A row with an empty mask looks at its condition alone. -/
theorem hits_emptyMask (arm : AsmArm) (priority : Nat) :
    AsmRow.hits max r b ⟨arm, 0x000, 0x000, priority⟩ = true ↔ armCond max r b arm = true := by
  simp [AsmRow.hits]

/-- A row of the table matches where its arm's condition holds (R102). -/
theorem hits_iff {row : AsmRow} (hrow : row ∈ asmTable) :
    row.hits max r b = true ↔ ArmApplies max r b row.arm := by
  have fits : exceeds max (declaredLength r b) = false ↔ (declaredLength r b).toNat ≤ max.toNat := by
    simp [exceeds]
  simp only [asmTable, List.mem_cons, List.not_mem_nil, or_false] at hrow
  rcases hrow with rfl | rfl | rfl | rfl | rfl | rfl | rfl | rfl
  · exact (hits_emptyMask ..).trans (by simp [armCond, ArmApplies])
  · exact (hits_fullMask max r b .sof stReady 0x7E#8 2).trans
      (and_comm.trans (by simp [armCond, ArmApplies]))
  · exact (hits_stMask max r b .skip stReady 1).trans (by simp [armCond, ArmApplies, and_left_comm])
  · exact (hits_stMask max r b .lenh stLengthHigh 1).trans (by simp [armCond, ArmApplies, and_comm])
  · exact (hits_stMask max r b .lenl stLengthLow 1).trans (by simp [armCond, ArmApplies, fits, and_left_comm])
  · exact (hits_stMask max r b .lenlOvf stLengthLow 1).trans
      (by simp [armCond, ArmApplies, exceeds_iff, and_left_comm])
  · exact (hits_stMask max r b .pay stPayload 1).trans (by simp [armCond, ArmApplies, and_left_comm])
  · exact (hits_stMask max r b .ck stPayload 1).trans (by simp [armCond, ArmApplies, and_left_comm])

end

/-- Every arm has a row. -/
theorem exists_row_of_arm (arm : AsmArm) : ∃ row ∈ asmTable, row.arm = arm := by
  cases arm <;> decide

/-- No arm has two rows. -/
theorem row_unique : ∀ row ∈ asmTable, ∀ other ∈ asmTable, other.arm = row.arm → other = row := by decide

/-- The table selects an arm's row where the byte takes the arm. -/
theorem rowSelected_armInstr (max : Half) (r : AsmRegs) {arm : AsmArm} {b : Byte}
    (hsof : arm = .sof → b = 0x7E#8) : rowSelected max r (armInstr b arm) = (armOf max r b == arm) := by
  cases arm with
  | sof => obtain rfl := hsof rfl; rfl
  | _ => rfl

theorem isIo_iff (f : Frame) : f.isIo = true ↔ f.payload.head? = some 0x92#8 := by
  simp [Frame.isIo]

/-! ### The obligations -/

/-- Settles O10: a row matches where its arm's condition holds, and exactly one arm's condition holds. -/
theorem exactlyOneAsmRowMatches : Obligations.ExactlyOneAsmRowMatches := by
  intro max r b
  have hits : ∀ row ∈ asmTable, row.hits max r b = true ↔ row.arm = armOf max r b := fun row hrow => by
    rw [hits_iff _ _ _ hrow, ← armOf_eq_iff, eq_comm]
  obtain ⟨row, hrow, harm⟩ := exists_row_of_arm (armOf max r b)
  refine ⟨hits, row, hrow, (hits row hrow).2 harm, fun other hother hhit => row_unique row hrow other hother ?_⟩
  rw [harm, (hits other hother).1 hhit]

/-- Settles O22: an arm that the byte does not take and a decode row of the other type run no branch but the
refusal. -/
theorem unselectedRowsAreRefused : Obligations.UnselectedRowsAreRefused := by
  refine ⟨fun i s h => ?arm, fun f s h => if_neg (mt (isIo_iff f).1 h), fun f s h => if_pos ((isIo_iff f).2 h)⟩
  case arm =>
    rcases instrKind i with @⟨arm, b, hsof⟩ | _ | _ | _ | @⟨_, hsel, -⟩
    · have hother : armAt b s ≠ arm := by simpa [armAt, rowSelected_armInstr _ _ hsof] using h
      rw [exec_armInstr_eq_ite hsof, if_neg hother]
    · cases h
    · cases h
    · cases h
    · cases h.symm.trans (hsel _ _)

end Sys2Proof.Machine
end

section
/-! SUPPORT. The request records (log 6): the decoder and the encoder undo each other on the rows that the
table selects, a decoded row runs, and the obligations that say so. -/

namespace Sys2Proof.Machine

/-! ### Encoding after decoding -/

/-- A request on the port `in_data` is the byte (10_state.md R36). -/
theorem encode_armInstr {arm : AsmArm} {b : Byte} (hsof : arm = .sof → b = 0x7E#8) :
    encode (armInstr b arm) = [Port.code .inData, b] := by
  cases arm with
  | sof => obtain rfl := hsof rfl; rfl
  | _ => rfl

/-- The byte of an arm is one its row takes. -/
theorem wellFormed_armInstr_armOf (max : Half) (r : AsmRegs) (b : Byte) :
    WellFormed (armInstr b (armOf max r b)) = true := by
  cases h : armOf max r b with
  | skip =>
    obtain ⟨-, -, hb⟩ := (armOf_eq_iff .skip).1 h
    simpa [armInstr, WellFormed] using hb
  | _ => rfl

theorem delimiter_of_armOf_eq_sof {max : Half} {r : AsmRegs} {b : Byte} (h : armOf max r b = .sof) :
    b = 0x7E#8 :=
  ((armOf_eq_iff .sof).1 h).2.2

/-- The selectors of the eight legal builder rows (30_encoding.md R93). -/
def legalSelectors : List (BitVec 4) := [0x9#4, 0x8#4, 0xB#4, 0xA#4, 0xD#4, 0xC#4, 0xF#4, 0xE#4]

/-- Every other selector selects BLD.BUILD.ERR with its two lower pin bits and its level. -/
theorem bldInstr_refused {sel : BitVec 4} (h : sel ∉ legalSelectors) (dest : RemoteAddress) :
    bldInstr sel dest = .bldErr (sel.extractLsb' 1 2) (sel.getLsbD 0) dest := by
  simp only [legalSelectors, List.mem_cons, List.not_mem_nil, or_false, not_or] at h
  simp [bldInstr, h]

/-- The selector that BLD.BUILD.ERR is encoded with carries its pin and its level. -/
theorem refused_selector : ∀ (pin : BitVec 2) (level : Bool),
    0#1 ++ pin ++ BitVec.ofBool level ∉ legalSelectors ∧
    (0#1 ++ pin ++ BitVec.ofBool level).extractLsb' 1 2 = pin ∧
    (0#1 ++ pin ++ BitVec.ofBool level).getLsbD 0 = level := by decide

theorem bldInstr_refused_selector (pin : BitVec 2) (level : Bool) (dest : RemoteAddress) :
    bldInstr (0#1 ++ pin ++ BitVec.ofBool level) dest = .bldErr pin level dest := by
  obtain ⟨hill, hpin, hlevel⟩ := refused_selector pin level
  rw [bldInstr_refused hill, hpin, hlevel]

/-- A selector that is none of the eight legal ones is that of its two lower pin bits and its level. -/
theorem selector_of_refused : ∀ sel : BitVec 4, sel ∉ legalSelectors →
    0#1 ++ sel.extractLsb' 1 2 ++ BitVec.ofBool (sel.getLsbD 0) = sel := by decide

/-- A builder row is encoded by the selector that selects it. -/
theorem encode_bldInstr (sel : BitVec 4) (dest : RemoteAddress) :
    encode (bldInstr sel dest) = encodeBuild sel dest := by
  by_cases h : sel ∈ legalSelectors
  · simp only [legalSelectors, List.mem_cons, List.not_mem_nil, or_false] at h
    rcases h with rfl | rfl | rfl | rfl | rfl | rfl | rfl | rfl <;> rfl
  · rw [bldInstr_refused h, encode, selector_of_refused sel h]

theorem bldInstr_always_selected (max : Half) (r : AsmRegs) (sel : BitVec 4) (dest : RemoteAddress) :
    WellFormed (bldInstr sel dest) = true ∧ rowSelected max r (bldInstr sel dest) = true := by
  unfold bldInstr
  split_ifs <;> exact ⟨rfl, rfl⟩

/-- A selector byte with empty upper bits is its four lower bits. -/
theorem selector_byte : ∀ sel : Byte, sel.extractLsb' 4 4 = 0#4 → (sel.extractLsb' 0 4).setWidth 8 = sel := by
  decide

/-- What a builder request decodes to is encoded by the request. -/
theorem decodeBuild_ok {ops : List Byte} {i : Instr} (h : decodeBuild ops = .ok i) :
    ∃ sel dest, i = bldInstr sel dest ∧ encodeBuild sel dest = Port.code .bldBuild :: ops := by
  unfold decodeBuild at h
  split at h
  · split at h
    · next sel a0 a1 a2 a3 a4 a5 a6 a7 a8 a9 hsel =>
      cases h
      exact ⟨_, _, rfl, by simp [encodeBuild, selector_byte sel hsel]⟩
    · cases h
  · cases h

/-- What a raw value decodes to is encoded by its operand bytes. -/
theorem decodeRaw_map_ok {port : Port} {ops : List Byte} {f : Option Half → Instr} {i : Instr}
    (h : (decodeRaw port ops).map f = .ok i) : ∃ raw, i = f raw ∧ encodeRaw raw = ops := by
  unfold decodeRaw at h
  split at h
  · cases h; exact ⟨none, rfl, rfl⟩
  · cases h; exact ⟨_, rfl, by simp [encodeRaw]⟩
  · cases h

theorem decodeRaw_encodeRaw (port : Port) (raw : Option Half) : decodeRaw port (encodeRaw raw) = .ok raw := by
  cases raw <;> simp [encodeRaw, decodeRaw]

/-- A frame selects the decode row of its type (30_encoding.md R87). -/
theorem decodeFrame_ok {f : Frame} {i : Instr} (h : decodeFrame f = .ok i) (max : Half) (r : AsmRegs) :
    WellFormed i = true ∧ rowSelected max r i = true ∧
      encode i = Port.code .decDecode :: f.checksum :: f.payload := by
  unfold decodeFrame at h
  split at h
  · next hfits =>
    cases h
    unfold decInstr
    split
    · next hio => exact ⟨by simp [WellFormed, hfits, hio], rfl, rfl⟩
    · next hio => exact ⟨by simp [WellFormed, hfits, hio], rfl, rfl⟩
  · cases h

/-- What the decoder answers for one port, with nothing of the record lost. -/
theorem decodeOperands_ok {max : Half} {r : AsmRegs} {port : Port} {ops : List Byte} {i : Instr}
    (h : decodeOperands max r port ops = .ok i) :
    WellFormed i = true ∧ rowSelected max r i = true ∧ encode i = port.code :: ops := by
  unfold decodeOperands at h
  split at h
  · next b =>
    cases h
    exact ⟨wellFormed_armInstr_armOf max r b, by simp [rowSelected_armInstr max r delimiter_of_armOf_eq_sof],
      encode_armInstr delimiter_of_armOf_eq_sof⟩
  · cases h; exact ⟨rfl, rfl, rfl⟩
  · cases h; exact ⟨rfl, rfl, rfl⟩
  · cases h; exact ⟨rfl, rfl, rfl⟩
  · exact decodeFrame_ok h max r
  · obtain ⟨sel, dest, rfl, hrecord⟩ := decodeBuild_ok h
    obtain ⟨hwf, hsel⟩ := bldInstr_always_selected max r sel dest
    exact ⟨hwf, hsel, by rw [encode_bldInstr, hrecord]⟩
  · cases h; exact ⟨rfl, rfl, rfl⟩
  · cases h; exact ⟨rfl, rfl, rfl⟩
  · obtain ⟨raw, rfl, hraw⟩ := decodeRaw_map_ok h
    exact ⟨rfl, rfl, by rw [encode, hraw]⟩
  · obtain ⟨raw, rfl, hraw⟩ := decodeRaw_map_ok h
    exact ⟨rfl, rfl, by rw [encode, hraw]⟩
  · cases h

/-! ### Decoding after encoding -/

/-- The byte that is requested for an arm takes it where the table selects it. -/
theorem decode_encode_armInstr {max : Half} {r : AsmRegs} {arm : AsmArm} {b : Byte}
    (hsof : arm = .sof → b = 0x7E#8) (hsel : rowSelected max r (armInstr b arm) = true) :
    decode max r (encode (armInstr b arm)) = .ok (armInstr b arm) := by
  have harm : armOf max r b = arm := by simpa [rowSelected_armInstr max r hsof] using hsel
  rw [encode_armInstr hsof, decode_code_cons, decodeOperands, harm]

/-- A frame whose length fits is read back and selects its row. -/
theorem decode_encode_frame (max : Half) (r : AsmRegs) {f : Frame} (hfits : f.fits = true) :
    decode max r (Port.code .decDecode :: f.checksum :: f.payload) = .ok (decInstr f) := by
  rw [decode_code_cons, decodeOperands, decodeFrame, if_pos hfits]

/-! ### The obligations -/

/-- Settles O9: port by port, the decoder keeps every operand bit and answers only what is selected. -/
theorem decodeGivesOnlySelectedRows : Obligations.DecodeGivesOnlySelectedRows := by
  intro max r record i h
  obtain ⟨port, ops, rfl, hops⟩ := decode_ok_cases h
  exact decodeOperands_ok hops

/-- Settles O8: the record begins with the row's port, and that port's decoder reads the operands back. -/
theorem decodeOfEncodeIsTheInstruction : Obligations.DecodeOfEncodeIsTheInstruction := by
  intro max r i hwf hsel
  cases i with
  | asmBadst b => exact decode_encode_armInstr (arm := .badst) nofun hsel
  | asmSof => exact decode_encode_armInstr (arm := .sof) (b := 0x7E#8) (fun _ => rfl) hsel
  | asmSkip b => exact decode_encode_armInstr (arm := .skip) nofun hsel
  | asmLenh b => exact decode_encode_armInstr (arm := .lenh) nofun hsel
  | asmLenl b => exact decode_encode_armInstr (arm := .lenl) nofun hsel
  | asmLenlOvf b => exact decode_encode_armInstr (arm := .lenlOvf) nofun hsel
  | asmPay b => exact decode_encode_armInstr (arm := .pay) nofun hsel
  | asmCk b => exact decode_encode_armInstr (arm := .ck) nofun hsel
  | decIo f =>
    obtain ⟨hfits, hio⟩ : f.fits = true ∧ f.isIo = true := by simpa [WellFormed] using hwf
    rw [encode, decode_encode_frame max r hfits, decInstr, if_pos hio]
  | decNa f =>
    obtain ⟨hfits, hio⟩ : f.fits = true ∧ f.isIo = false := by simpa [WellFormed] using hwf
    rw [encode, decode_encode_frame max r hfits, decInstr, hio]
    rfl
  | bldD4High dest => exact decode_encodeBuild max r 0x9#4 dest
  | bldD4Low dest => exact decode_encodeBuild max r 0x8#4 dest
  | bldD5High dest => exact decode_encodeBuild max r 0xB#4 dest
  | bldD5Low dest => exact decode_encodeBuild max r 0xA#4 dest
  | bldD6High dest => exact decode_encodeBuild max r 0xD#4 dest
  | bldD6Low dest => exact decode_encodeBuild max r 0xC#4 dest
  | bldD7High dest => exact decode_encodeBuild max r 0xF#4 dest
  | bldD7Low dest => exact decode_encodeBuild max r 0xE#4 dest
  | bldErr pin level dest => rw [encode, decode_encodeBuild, bldInstr_refused_selector]
  | cnvPct raw => rw [encode, decode_code_cons, decodeOperands, decodeRaw_encodeRaw]; rfl
  | cnvTemp raw => rw [encode, decode_code_cons, decodeOperands, decodeRaw_encodeRaw]; rfl
  | cksCompute bytes => rw [encode, decode_code_cons, decodeOperands]
  | cksVerify bytes claimed => rw [encode, decode_code_cons, decodeOperands]
  | asmStep b => rw [encode, decode_code_cons, decodeOperands]
  | asmFeed chunk => rw [encode, decode_code_cons, decodeOperands]
  | asmReset => rw [encode, decode_code_cons, decodeOperands]

/-- A row that is well-formed and selected completes: nothing faults, and no refusal is reached. -/
theorem exec_completes {i : Instr} {s : State} (hwf : WellFormed i = true)
    (hsel : rowSelected s.cfg.maxPayload s.regs i = true) : ∃ t, exec i s = .next t := by
  rcases instrKind i with @⟨arm, b, hsof⟩ | ⟨b⟩ | ⟨chunk⟩ | _ | @⟨_, -, ⟨o, ho⟩ | ⟨hill, -⟩⟩
  · have harm : armAt b s = arm := by simpa [armAt, rowSelected_armInstr _ _ hsof] using hsel
    obtain ⟨ans, -, heq⟩ := execAsmStep_next b s
    exact ⟨_, by rw [exec_armInstr_eq_ite hsof, if_pos harm, heq]⟩
  · obtain ⟨ans, -, heq⟩ := execAsmStep_next b s
    exact ⟨_, heq⟩
  · obtain ⟨fs, a, -, heq⟩ := execAsmFeed_next chunk s
    exact ⟨_, heq⟩
  · exact ⟨_, execAsmReset_eq s⟩
  · exact ⟨_, ho s⟩
  · simp [hill] at hwf

/-- Settles O6: the decoder answers only rows that complete. -/
theorem stepStopsOnlyOnABadRecord : Obligations.StepStopsOnlyOnABadRecord := by
  intro s
  rcases step_cases s with ⟨-, hidle⟩ | ⟨record, rest, i, -, hdec, hexec⟩ | hbad
  · exact .inl ⟨_, hidle⟩
  · obtain ⟨hwf, hsel, -⟩ := decodeGivesOnlySelectedRows _ _ _ _ hdec
    obtain ⟨t, ht⟩ := exec_completes (s := s.withRequests rest) hwf hsel
    exact .inl ⟨t, hexec.trans ht⟩
  · exact .inr hbad

/-- Settles O7: each word is a closed record; the two that compare a length with the open capacity declare 0. -/
theorem selectorWordsDecodeToTheirRows : Obligations.SelectorWordsDecodeToTheirRows := by
  unfold Obligations.SelectorWordsDecodeToTheirRows
  exact ⟨rfl, rfl, rfl, rfl, rfl, rfl, ⟨rfl, rfl, rfl, rfl, rfl, rfl, rfl, rfl, rfl⟩, rfl, rfl⟩

end Sys2Proof.Machine
end

section
/-! SUPPORT. What one step of ASM does to the registers, the buffer and its outputs (41_assembler.md R130 to
R142), and the obligations about a single step. -/

namespace Sys2Proof.Machine

/-! ### What the step answers, arm by arm -/

section
variable {max : Half} {a : AsmState} {b : Byte}

theorem asmStep_badst (hw : wfRegs max a.regs = false) : asmStep max b a = some (raiseInvalid a) := by
  rw [asmStep, armOf_eq_badst hw, armBadst]

theorem asmStep_sof (hw : wfRegs max a.regs = true) (hst : a.regs.st = stReady) :
    asmStep max 0x7E#8 a = some (quietStep ⟨stLengthHigh, 0#16, 0#16, 0#16⟩ a) := by
  rw [asmStep, armOf_eq_sof hw hst rfl, armSof]

theorem asmStep_lenh (hw : wfRegs max a.regs = true) (hst : a.regs.st = stLengthHigh) :
    asmStep max b a = some (armLenh b a) := by
  rw [asmStep, armOf_eq_lenh hw hst]

theorem asmStep_lenlOvf (hw : wfRegs max a.regs = true) (hst : a.regs.st = stLengthLow)
    (hl : max.toNat < (declaredLength a.regs b).toNat) : asmStep max b a = some (raiseInvalid a) := by
  rw [asmStep, armOf_eq_lenlOvf hw hst hl, armLenlOvf]

end

/-- The length register with an empty low byte is the high byte's share (41_assembler.md R133). -/
theorem be16_zero (b : Byte) : be16 b 0#8 = BitVec.ofNat 16 (256 * b.toNat) := rfl

/-- The verdict beside an emitted frame (41_assembler.md R141). -/
theorem emitted_eq (f : Frame) : emitted f = ⟨f, decide (checksum f.payload = f.checksum)⟩ := rfl

@[simp] theorem bufRead_frame_length (m : Memory) (n : Half) (ck : Byte) :
    (⟨bufRead m n.toNat, ck⟩ : Frame).length = n := by
  simp [Frame.length]

/-! ### What one step can do -/

section
variable {max : Half} {a : AsmState} {b : Byte} {ans : StepAnswer}

/-- A frame is emitted by ASM.CK alone, and that is what it answers (41_assembler.md R137, R141). -/
theorem asmStep_emits {e : Emitted} (h : asmStep max b a = some ans) (he : ans.frame = some e) :
    wfRegs max a.regs = true ∧ a.regs.st = stPayload ∧ a.regs.rem = 0#16 ∧ ans.transient = .complete ∧
      e = emitted ⟨bufRead a.buf a.regs.len.toNat, b⟩ := by
  rcases asmStep_cases max b a with
    ⟨-, -, e'⟩ | ⟨-, -, -, -, e'⟩ | ⟨-, -, -, -, e'⟩ | ⟨-, -, -, e'⟩ | ⟨-, -, -, -, e'⟩ | ⟨-, -, -, -, e'⟩ |
    ⟨-, -, -, -, e'⟩ | ⟨-, hw, hst, hr, e'⟩ <;> cases h.symm.trans e' <;> cases he
  exact ⟨hw, hst, hr, rfl, rfl⟩

/-- The buffer is written by ASM.PAY alone, at `wr` and inside the capacity (10_state.md R25, 20_memory.md R51). -/
theorem asmStep_buf (h : asmStep max b a = some ans) :
    (armOf max a.regs b = .pay ∧ a.regs.wr.toNat < max.toNat ∧
      ans.asm.buf = a.buf.write a.regs.wr.toNat b) ∨ ans.asm.buf = a.buf := by
  rcases asmStep_cases max b a with
    ⟨-, -, e⟩ | ⟨-, -, -, -, e⟩ | ⟨-, -, -, -, e⟩ | ⟨-, -, -, e⟩ | ⟨-, -, -, -, e⟩ | ⟨-, -, -, -, e⟩ |
    ⟨harm, hw, hst, hr, e⟩ | ⟨-, -, -, -, e⟩ <;> cases h.symm.trans e
  · exact .inr rfl
  · exact .inr rfl
  · exact .inr rfl
  · exact .inr rfl
  · exact .inr rfl
  · exact .inr rfl
  · exact .inl ⟨harm, (wr_inside hw hst hr).1, rfl⟩
  · exact .inr rfl

/-- All that a feed of one byte more can do: the step of the byte, and then the feed of the rest. -/
theorem asmFeed_cons_cases {max : Half} {b : Byte} {rest : List Byte} {a c : AsmState} {fs : List Emitted}
    (h : asmFeed max (b :: rest) a = some (fs, c)) :
    ∃ ans gs, asmStep max b a = some ans ∧ asmFeed max rest ans.asm = some (gs, c) ∧
      fs = ans.frame.toList ++ gs := by
  obtain ⟨ans, hstep⟩ := asmStep_total max b a
  rw [asmFeed_cons hstep] at h
  obtain ⟨⟨gs, c'⟩, hrest, heq⟩ := Option.map_eq_some_iff.1 h
  cases heq
  exact ⟨ans, gs, hstep, hrest, rfl⟩

/-- A feed leaves every address outside the capacity as it was (41_assembler.md R143). -/
theorem asmFeed_buf_outside {chunk : List Byte} {a c : AsmState} {fs : List Emitted}
    (h : asmFeed max chunk a = some (fs, c)) {k : Nat} (hk : max.toNat ≤ k) : c.buf.read k = a.buf.read k := by
  induction chunk generalizing a fs with
  | nil => cases h; rfl
  | cons b rest ih =>
    obtain ⟨ans, gs, hstep, hrest, -⟩ := asmFeed_cons_cases h
    rw [ih hrest]
    rcases asmStep_buf hstep with ⟨-, hin, hbuf⟩ | hbuf
    · rw [hbuf, Memory.read_write_other _ _ (by omega)]
    · rw [hbuf]

end

/-! ### The obligations -/

/-- Settles O20: the row of the arm that is taken and the step report one answer of the hardware. -/
theorem stepIsTheSelectedArm : Obligations.StepIsTheSelectedArm := by
  intro s b
  obtain ⟨ans, -, heq⟩ := execAsmStep_next b s
  exact ⟨_, _, _, heq, (exec_armInstr b s).trans heq, rfl, rfl, rfl⟩

/-- Settles O21: one row of the table for each arm. -/
theorem transitionTable : Obligations.TransitionTable := by
  intro s b
  obtain ⟨ans, hans, heq⟩ := execAsmStep_next b s
  refine ⟨_, _, _, heq, rfl, ?_⟩
  rw [← declaredLength_toNat, State.afterStep_regs]
  rcases asmStep_cases s.cfg.maxPayload b s.toAsmState with
    ⟨-, hw, e⟩ | ⟨-, hw, hst, hb, e⟩ | ⟨-, hw, hst, hb, e⟩ | ⟨-, hw, hst, e⟩ | ⟨-, hw, hst, hl, e⟩ |
    ⟨-, hw, hst, hl, e⟩ | ⟨-, hw, hst, hr, e⟩ | ⟨-, hw, hst, hr, e⟩ <;> cases hans.symm.trans e
  · simp [hw]
  · simp [hw, hst, hb]
  · simp [hw, hst, hb]
  · simp [hw, hst]
  · simp [hw, hst, hl]
  · simp [hw, hst, Nat.not_le_of_lt hl]
  · simp [hw, hst, hr]
  · simp [hw, hst, hr]

/-- Settles O19: the two arms that raise Invalid, and no other arm reports it. -/
theorem invalidPathSavesNothing : Obligations.InvalidPathSavesNothing := by
  intro s b
  obtain ⟨ans, hans, heq⟩ := execAsmStep_next b s
  refine ⟨_, _, _, heq, rfl, ?_⟩
  rw [← declaredLength_toNat]
  rcases asmStep_cases s.cfg.maxPayload b s.toAsmState with
    ⟨-, hw, e⟩ | ⟨-, hw, hst, hb, e⟩ | ⟨-, hw, hst, hb, e⟩ | ⟨-, hw, hst, e⟩ | ⟨-, hw, hst, hl, e⟩ |
    ⟨-, hw, hst, hl, e⟩ | ⟨-, hw, hst, hr, e⟩ | ⟨-, hw, hst, hr, e⟩ <;> cases hans.symm.trans e
  · exact ⟨⟨fun _ => .inl hw, fun _ => rfl⟩, fun _ => rfl⟩
  · simp [hw, hst, stLengthLow_ne_stReady.symm]
  · simp [hw, hst, stLengthLow_ne_stReady.symm]
  · simp [hw, hst, stLengthLow_ne_stLengthHigh.symm]
  · simp [hw, hl]
  · exact ⟨⟨fun _ => .inr ⟨hst, hl⟩, fun _ => rfl⟩, fun _ => rfl⟩
  · simp [hw, hst]
  · simp [hw, hst]

/-- Settles O18: registers that are not well-formed take ASM.BADST whatever the byte. -/
theorem badstTakesTheInvalidPath : Obligations.BadstTakesTheInvalidPath := fun _ _ hw =>
  exec_arm_and_step (armOf_eq_badst hw) (asmStep_badst hw)

/-- Settles O11: the delimiter takes ASM.SOF. -/
theorem sofStartsAFrame : Obligations.SofStartsAFrame := fun _ hw hst =>
  exec_arm_and_step (armOf_eq_sof hw hst rfl) (asmStep_sof hw hst)

/-- Settles O13: every byte takes ASM.LENH, whatever the capacity. -/
theorem lenhTakesTheHighByte : Obligations.LenhTakesTheHighByte := by
  intro s b hw hst
  obtain ⟨hlenh, hstep⟩ := exec_arm_and_step (armOf_eq_lenh hw hst) (asmStep_lenh (b := b) hw hst)
  exact ⟨hlenh, hstep.trans hlenh.symm⟩

/-- Settles O15: a length above the capacity takes ASM.LENL.OVF, and no length is above 65535. -/
theorem lenlOvfRefusesTheLength : Obligations.LenlOvfRefusesTheLength := by
  refine ⟨fun s b hw hst hl => ?refused, fun r b harm => ?never⟩
  case refused =>
    have hover : s.cfg.maxPayload.toNat < (declaredLength s.regs b).toNat := declaredLength_toNat s.regs b ▸ hl
    obtain ⟨hovf, hstep⟩ := exec_arm_and_step (armOf_eq_lenlOvf hw hst hover) (asmStep_lenlOvf hw hst hover)
    exact ⟨hovf, hstep.trans hovf.symm⟩
  case never =>
    obtain ⟨-, -, hl⟩ := (armOf_eq_iff .lenlOvf).1 harm
    bv_omega

/-- Settles O17: the payload is what ASM.CK reads from the buffer. -/
theorem ckEmitsTheFrame : Obligations.CkEmitsTheFrame := by
  intro s b hw hst hr
  obtain ⟨hck, hstep⟩ := exec_arm_and_step (armOf_eq_ck hw hst hr) (asmStep_ck (b := b) hw hst hr)
  exact ⟨bufRead s.buf s.regs.len.toNat, bufRead_length _ _, bufRead_frame_length _ _ _,
    fun _ _ => bufRead_getElem?, hck, hstep.trans hck.symm⟩

/-- Settles O23: ASM.PAY alone writes, at `wr`, which is inside the capacity. -/
theorem onlyPayWritesTheBuffer : Obligations.OnlyPayWritesTheBuffer := by
  refine ⟨fun s t b h => ⟨fun k => ?step, exec_frame h⟩, fun s t chunk h => ⟨fun k hk => ?feed, exec_frame h⟩,
    fun s t h => ⟨fun k => ?reset, exec_frame h⟩⟩
  case step =>
    obtain ⟨ans, hans, rfl⟩ := execAsmStep_eq_next h
    rcases asmStep_buf hans with ⟨hpay, -, hbuf⟩ | hbuf
    · by_cases hk : k = s.regs.wr.toNat
      · exact .inl ⟨hpay, hk⟩
      · exact .inr (by rw [State.afterStep_buf, hbuf, Memory.read_write_other _ _ hk])
    · exact .inr (by rw [State.afterStep_buf, hbuf])
  case feed =>
    obtain ⟨fs, c, hfeed, rfl⟩ := execAsmFeed_eq_next h
    exact asmFeed_buf_outside hfeed hk
  case reset =>
    cases h
    rfl

/-- Settles O25: at checksum capture every byte below `len` was written, and the frame is read from them. -/
theorem emittedFramesAreWhatWasReceived : Obligations.EmittedFramesAreWhatWasReceived := by
  intro s t b tr e hinv h hout
  obtain ⟨ans, hans, rfl⟩ := execAsmStep_eq_next h
  obtain ⟨htr, he⟩ : ans.transient = tr ∧ ans.frame = some e := by simpa using hout
  obtain ⟨hw, hst, hr, hcomplete, rfl⟩ := asmStep_emits hans he
  obtain ⟨hwr, hlen⟩ := wr_eq_len hw hst hr
  refine ⟨htr.symm.trans hcomplete, bufRead_frame_length _ _ _, bufRead_length _ _, hlen, rfl, fun k hk => ?bytes,
    verifies_iff _ _, fun hzero => ?empty⟩
  case bytes =>
    obtain ⟨v, hv⟩ := Option.isSome_iff_exists.1 (hinv.written k (hwr ▸ hk))
    rw [hv]
    exact bufRead_getElem? hk hv
  case empty =>
    have hnil : bufRead s.buf s.regs.len.toNat = [] := by rw [hzero]; rfl
    rw [emitted, hnil, verifies_iff, checksum_nil, eq_comm]

end Sys2Proof.Machine
end

section
/-! SUPPORT. What every step keeps: the invariant (41_assembler.md R143), and that the dead bytes of the buffer
are not observable (93_implementation_defined.md U3); both on the hardware first, then in a run. -/

namespace Sys2Proof.Machine

/-! ### The invariant -/

/-- The invariant on the hardware alone, of which `State.Inv` is the case of a run. -/
structure AsmState.Inv (max : Half) (a : AsmState) : Prop where
  regs : wfRegs max a.regs = true
  canonical : a.buf.wf
  inside : ∀ c ∈ a.buf, c.1 < max.toNat
  written : ∀ k, k < a.regs.wr.toNat → (a.buf.read k).isSome = true

theorem inv_iff (s : State) : s.Inv ↔ s.toAsmState.Inv s.cfg.maxPayload :=
  ⟨fun ⟨hw, hc, hin, hwr⟩ => ⟨hw, hc, hin, hwr⟩, fun ⟨hw, hc, hin, hwr⟩ => ⟨hw, hc, hin, hwr⟩⟩

section
variable {max : Half} {a : AsmState}

/-- With no byte counted, the invariant asks nothing of the bytes but their places. -/
theorem AsmState.Inv.withRegs (h : a.Inv max) {r : AsmRegs} (hw : wfRegs max r = true) (hwr : r.wr = 0#16) :
    (a.withRegs r).Inv max :=
  ⟨hw, h.canonical, h.inside, fun k hk => by simp [hwr] at hk⟩

theorem wfRegs_readyRegs (max : Half) : wfRegs max readyRegs = true := by simp [wfRegs_iff]

/-- Taking Invalid, completing a frame and resetting leave the registers of reset. -/
theorem AsmState.Inv.reset (h : a.Inv max) : (a.withRegs readyRegs).Inv max :=
  h.withRegs (wfRegs_readyRegs max) rfl

/-- In every state but ReadPayload no byte is counted (10_state.md R26). -/
theorem counters_eq_zero {r : AsmRegs} (hw : wfRegs max r = true) (hst : r.st ≠ stPayload) :
    r.rem = 0#16 ∧ r.wr = 0#16 := by
  rcases (wfRegs_iff max r).1 hw with ⟨-, -, h⟩ | ⟨-, -, h⟩ | ⟨-, -, h⟩ | ⟨h, -⟩
  · exact h
  · exact h
  · exact h
  · exact absurd h hst

/-- In ReadPayload the counters share the length, which is inside the capacity (10_state.md R26). -/
theorem wfRegs_payload_iff {r : AsmRegs} (hst : r.st = stPayload) :
    wfRegs max r = true ↔ r.len.toNat ≤ max.toNat ∧ r.wr.toNat + r.rem.toNat = r.len.toNat := by
  simp [wfRegs_iff, hst, stPayload, stReady, stLengthHigh, stLengthLow]

/-- The counters after a payload byte: neither is at an end of its range, and the registers stay well-formed. -/
theorem counters_after_pay {r : AsmRegs} (hw : wfRegs max r = true) (hst : r.st = stPayload) (hr : r.rem ≠ 0#16) :
    (r.wr + 1#16).toNat = r.wr.toNat + 1 ∧ (r.rem - 1#16).toNat + 1 = r.rem.toNat ∧
      wfRegs max { r with wr := r.wr + 1#16, rem := r.rem - 1#16 } = true := by
  obtain ⟨hin, hsum, hpos⟩ := wr_inside hw hst hr
  obtain ⟨hlen, -⟩ := (wfRegs_payload_iff hst).1 hw
  have hwr : (r.wr + 1#16).toNat = r.wr.toNat + 1 := by bv_omega
  have hrem : (r.rem - 1#16).toNat + 1 = r.rem.toNat := by bv_omega
  have hsum' : (r.wr + 1#16).toNat + (r.rem - 1#16).toNat = r.len.toNat := by omega
  exact ⟨hwr, hrem, (wfRegs_payload_iff (by exact hst)).2 ⟨hlen, hsum'⟩⟩

/-- A payload byte is counted and written in one step (10_state.md R24). -/
theorem AsmState.Inv.pay (h : a.Inv max) (hst : a.regs.st = stPayload) (hr : a.regs.rem ≠ 0#16) (b : Byte) :
    ((a.withBuf (a.buf.write a.regs.wr.toNat b)).withRegs
      { a.regs with wr := a.regs.wr + 1#16, rem := a.regs.rem - 1#16 }).Inv max := by
  obtain ⟨hin, -, -⟩ := wr_inside h.regs hst hr
  obtain ⟨hwr, -, hw⟩ := counters_after_pay h.regs hst hr
  refine ⟨hw, Memory.write_wf _ _ h.canonical, fun c hc => ?inside, fun k hk => ?written⟩
  case inside =>
    rcases Memory.mem_write hc with rfl | hc
    · exact hin
    · exact h.inside c hc
  case written =>
    by_cases hk' : k = a.regs.wr.toNat
    · subst hk'
      simp [Memory.read_write_same]
    · have hlt : k < a.regs.wr.toNat + 1 := hwr ▸ hk
      simpa [Memory.read_write_other _ _ hk'] using h.written k (by omega)

/-- "If `WF` holds before a step it holds after it", and what R143 draws from it for the buffer. -/
theorem asmStep_keeps_inv {b : Byte} {ans : StepAnswer} (h : a.Inv max) (hs : asmStep max b a = some ans) :
    ans.asm.Inv max := by
  rcases asmStep_cases max b a with
    ⟨-, -, e⟩ | ⟨-, -, -, -, e⟩ | ⟨-, -, -, -, e⟩ | ⟨-, hw, hst, e⟩ | ⟨-, hw, hst, hl, e⟩ | ⟨-, -, -, -, e⟩ |
    ⟨-, -, hst, hr, e⟩ | ⟨-, -, -, -, e⟩ <;> cases hs.symm.trans e
  · exact h.reset
  · exact h.withRegs (by simp [wfRegs_iff]) rfl
  · exact h
  · obtain ⟨hrem, hwr⟩ := counters_eq_zero hw (by rw [hst]; decide)
    exact h.withRegs (by simp [wfRegs_iff, hrem, hwr]) hwr
  · have hwr := wr_eq_zero_of_lengthLow hw hst
    exact h.withRegs ((wfRegs_payload_iff rfl).2 ⟨hl, by simp [hwr]⟩) hwr
  · exact h.reset
  · exact h.pay hst hr b
  · exact h.reset

theorem asmFeed_keeps_inv {chunk : List Byte} {c : AsmState} {fs : List Emitted} (h : a.Inv max)
    (hf : asmFeed max chunk a = some (fs, c)) : c.Inv max := by
  induction chunk generalizing a fs with
  | nil => cases hf; exact h
  | cons b rest ih =>
    obtain ⟨ans, gs, hstep, hrest, -⟩ := asmFeed_cons_cases hf
    exact ih (asmStep_keeps_inv h hstep) hrest

end

/-- No instruction breaks the invariant, wherever it completes. -/
theorem exec_keeps_inv {i : Instr} {s t : State} (hinv : s.Inv) (h : exec i s = .next t) : t.Inv := by
  rw [inv_iff] at hinv ⊢
  rcases exec_next_cases h with ⟨b, ans, hans, rfl⟩ | ⟨chunk, fs, a, hfeed, rfl⟩ | rfl | ⟨o, rfl⟩
  · exact asmStep_keeps_inv hinv hans
  · exact asmFeed_keeps_inv hinv hfeed
  · exact hinv.reset
  · exact hinv

/-- Settles O3: a step idles or runs one instruction. -/
theorem stepKeepsTheInvariant : Obligations.StepKeepsTheInvariant := by
  intro s t hinv h
  rcases step_cases s with ⟨-, hidle⟩ | ⟨_, rest, i, -, -, hexec⟩ | ⟨_, _, _, -, -, hbad⟩
  · cases h.symm.trans hidle
    exact (inv_iff _).2 ((inv_iff s).1 hinv)
  · exact exec_keeps_inv (s := s.withRequests rest) ((inv_iff _).2 ((inv_iff s).1 hinv)) (hexec.symm.trans h)
  · cases h.symm.trans hbad

/-- Settles O2: no byte is listed at reset and none is counted. -/
theorem resetMeetsTheInvariant : Obligations.ResetMeetsTheInvariant :=
  ⟨wfRegs_readyRegs _, List.Pairwise.nil, nofun, nofun⟩

/-- Settles O1: the registers at reset are `readyRegs`, which are well-formed for every capacity. -/
theorem resetIsReady : Obligations.ResetIsReady := ⟨rfl, rfl, rfl, rfl, rfl, wfRegs_readyRegs⟩

/-! ### Dead bytes -/

/-- Two states of the hardware that differ in dead bytes only: `State.SameButDead` on the hardware. -/
structure AsmState.SameButDead (a c : AsmState) : Prop where
  regs : a.regs = c.regs
  live : ∀ k, k < a.regs.wr.toNat → a.buf.read k = c.buf.read k

/-- Two answers of a step with the same outputs and states that differ in dead bytes only. -/
structure StepAnswer.SameButDead (x y : StepAnswer) : Prop where
  asm : x.asm.SameButDead y.asm
  transient : x.transient = y.transient
  frame : x.frame = y.frame

section
variable {max : Half} {a c : AsmState}

/-- Registers that count no byte leave every byte dead. -/
theorem AsmState.SameButDead.of_wr_eq_zero {r : AsmRegs} (hwr : r.wr = 0#16) :
    (a.withRegs r).SameButDead (c.withRegs r) :=
  ⟨rfl, fun k hk => by simp [hwr] at hk⟩

/-- Updating the registers where as many bytes are counted keeps what is live. -/
theorem AsmState.SameButDead.withRegs (h : a.SameButDead c) {r : AsmRegs} (hwr : r.wr = a.regs.wr) :
    (a.withRegs r).SameButDead (c.withRegs r) :=
  ⟨rfl, fun k hk => h.live k (hwr ▸ hk)⟩

/-- No step observes a dead byte: ASM.CK reads below `wr`, ASM.PAY makes the byte it writes live. -/
theorem asmStep_sameButDead {b : Byte} {x : StepAnswer} (h : a.SameButDead c) (hx : asmStep max b a = some x) :
    ∃ y, asmStep max b c = some y ∧ x.SameButDead y := by
  obtain ⟨r, m⟩ := a
  obtain ⟨r', m'⟩ := c
  obtain rfl : r = r' := h.regs
  rcases asmStep_cases max b ⟨r, m⟩ with
    ⟨-, hw, e⟩ | ⟨-, hw, hst, rfl, e⟩ | ⟨-, hw, hst, hb, e⟩ | ⟨-, hw, hst, e⟩ | ⟨-, hw, hst, hl, e⟩ |
    ⟨-, hw, hst, hl, e⟩ | ⟨-, hw, hst, hr, e⟩ | ⟨-, hw, hst, hr, e⟩ <;> cases hx.symm.trans e
  · exact ⟨_, asmStep_badst hw, .of_wr_eq_zero rfl, rfl, rfl⟩
  · exact ⟨_, asmStep_sof hw hst, .of_wr_eq_zero rfl, rfl, rfl⟩
  · exact ⟨_, asmStep_skip hw hst hb, h, rfl, rfl⟩
  · exact ⟨_, asmStep_lenh hw hst, h.withRegs rfl, rfl, rfl⟩
  · exact ⟨_, asmStep_lenl hw hst hl, h.withRegs rfl, rfl, rfl⟩
  · exact ⟨_, asmStep_lenlOvf hw hst hl, .of_wr_eq_zero rfl, rfl, rfl⟩
  · refine ⟨_, asmStep_pay hw hst hr, ⟨rfl, fun k hk => ?_⟩, rfl, rfl⟩
    obtain ⟨hin, -, -⟩ := wr_inside hw hst hr
    by_cases hk' : k = r.wr.toNat
    · subst hk'
      exact (Memory.read_write_same ..).trans (Memory.read_write_same ..).symm
    · have hlt : k < (r.wr + 1#16).toNat := hk
      have hlive : k < r.wr.toNat := by bv_omega
      exact (Memory.read_write_other _ _ hk').trans
        ((h.live k hlive).trans (Memory.read_write_other _ _ hk').symm)
  · obtain ⟨hwr, -⟩ := wr_eq_len hw hst hr
    have hread : bufRead m r.len.toNat = bufRead m' r.len.toNat :=
      bufRead_congr fun k hk => h.live k (hwr ▸ hk)
    exact ⟨_, asmStep_ck hw hst hr, .of_wr_eq_zero rfl, rfl, by rw [armCk, hread]⟩

theorem asmFeed_sameButDead {chunk : List Byte} {fs : List Emitted} {a' : AsmState} (h : a.SameButDead c)
    (hf : asmFeed max chunk a = some (fs, a')) :
    ∃ c', asmFeed max chunk c = some (fs, c') ∧ a'.SameButDead c' := by
  induction chunk generalizing a c fs with
  | nil => cases hf; exact ⟨c, rfl, h⟩
  | cons b rest ih =>
    obtain ⟨x, gs, hx, hrest, rfl⟩ := asmFeed_cons_cases hf
    obtain ⟨y, hy, hxy⟩ := asmStep_sameButDead h hx
    obtain ⟨c', hc', hac⟩ := ih hxy.asm hrest
    exact ⟨c', by rw [asmFeed_cons hy, hc', hxy.frame]; rfl, hac⟩

end

section
variable {s t : State}

theorem State.SameButDead.toAsm (h : s.SameButDead t) : s.toAsmState.SameButDead t.toAsmState :=
  ⟨h.regs, h.live⟩

/-- Runs whose hardware differs in dead bytes only, with the same results. -/
theorem State.SameButDead.withAsm_withOut (h : s.SameButDead t) {a c : AsmState} (hac : a.SameButDead c)
    (o : Output) : ((s.withAsm a).withOut o).SameButDead ((t.withAsm c).withOut o) :=
  ⟨hac.regs, h.cfg, h.requests, rfl, hac.live⟩

theorem execAsmStep_sameButDead (h : s.SameButDead t) (b : Byte) :
    sameButDead (execAsmStep b s) (execAsmStep b t) := by
  obtain ⟨x, hx, hs⟩ := execAsmStep_next b s
  obtain ⟨y, hy, hxy⟩ := asmStep_sameButDead h.toAsm hx
  rw [hs, execAsmStep_eq (h.cfg ▸ hy), State.afterStep, State.afterStep, hxy.transient, hxy.frame]
  exact h.withAsm_withOut hxy.asm _

/-- No instruction observes a dead byte. -/
theorem exec_sameButDead (h : s.SameButDead t) (i : Instr) : sameButDead (exec i s) (exec i t) := by
  rcases instrKind i with @⟨arm, b, hsof⟩ | ⟨b⟩ | ⟨chunk⟩ | _ | @⟨_, -, ⟨o, ho⟩ | ⟨-, hr⟩⟩
  · have hat : armAt b s = armAt b t := by rw [armAt, armAt, h.cfg, h.regs]
    rw [exec_armInstr_eq_ite hsof, exec_armInstr_eq_ite hsof, hat]
    split
    · exact execAsmStep_sameButDead h b
    · rfl
  · exact execAsmStep_sameButDead h b
  · obtain ⟨fs, a, hf, hs⟩ := execAsmFeed_next chunk s
    obtain ⟨c, hc, hac⟩ := asmFeed_sameButDead h.toAsm hf
    have ht : execAsmFeed chunk t = _ := execAsmFeed_eq (h.cfg ▸ hc)
    rw [exec, exec, hs, ht]
    exact h.withAsm_withOut hac _
  · exact h.withAsm_withOut (.of_wr_eq_zero rfl) _
  · rw [ho, ho, h.cfg]
    exact h.withAsm_withOut h.toAsm _
  · rw [hr, hr]
    rfl

end

/-- Settles O26: both runs take the same record, decode it alike and run an instruction that observes no dead
byte. -/
theorem deadBytesAreNotObservable : Obligations.DeadBytesAreNotObservable := by
  intro s t h
  have hdec : ∀ record, decode t.cfg.maxPayload t.regs record = decode s.cfg.maxPayload s.regs record := by
    simp [h.cfg, h.regs]
  rcases step_cases s with ⟨hreq, hidle⟩ | ⟨record, rest, i, hreq, hok, hexec⟩ | ⟨record, rest, why, hreq, hno, hbad⟩
  · rw [hidle, stepWithoutInstruction.1 t (h.requests ▸ hreq)]
    exact h.withAsm_withOut h.toAsm _
  · have hrest : (s.withRequests rest).SameButDead (t.withRequests rest) := ⟨h.regs, h.cfg, rfl, h.out, h.live⟩
    have ht : step t = exec i (t.withRequests rest) :=
      stepRunsTheDecodedInstruction t record rest i (h.requests ▸ hreq) ((hdec record).trans hok)
    rw [hexec, ht]
    exact exec_sameButDead hrest i
  · rw [hbad, stepWithoutInstruction.2 t record rest why (h.requests ▸ hreq) ((hdec record).trans hno)]
    rfl

end Sys2Proof.Machine
end

section
/-! SUPPORT. Feeds (41_assembler.md R139, R140): how chunks compose, how many frames a chunk completes, what the
bytes of a wire frame do to a Ready block (R144, R147), and that a run of bytes is their feed. -/

namespace Sys2Proof.Machine

/-! ### Chunks -/

section
variable {max : Half} {a c d : AsmState}

/-- Two feeds, one after the other, are the feed of both chunks. -/
theorem asmFeed_append_of {p q : List Byte} {fs gs : List Emitted} (hp : asmFeed max p a = some (fs, c))
    (hq : asmFeed max q c = some (gs, d)) : asmFeed max (p ++ q) a = some (fs ++ gs, d) := by
  rw [asmFeed_append, hp, Option.bind_some, hq]
  rfl

end

/-- Settles O28: the hardware's feed splits, and the run reports what the hardware answers. -/
theorem feedsSplitAtAnyChunkBoundary : Obligations.FeedsSplitAtAnyChunkBoundary := by
  intro s p q
  obtain ⟨fs, c, hp, hs⟩ := execAsmFeed_next p s
  obtain ⟨gs, d, hq, ht⟩ := execAsmFeed_next q ((s.withAsm c).withOut (.feed fs))
  exact ⟨_, _, fs, gs, hs, rfl, ht, rfl, execAsmFeed_eq (asmFeed_append_of hp hq)⟩

/-- Settles O27: a feed is total, and of a byte and a rest it is the step and then the feed of the rest. -/
theorem feedIsTheFoldOfSteps : Obligations.FeedIsTheFoldOfSteps := by
  refine ⟨fun s chunk => ?total, fun s => rfl, fun s t u b rest tr fr fs hb htr hrest hfs => ?cons⟩
  case total =>
    obtain ⟨fs, a, -, heq⟩ := execAsmFeed_next chunk s
    exact ⟨_, fs, heq, rfl⟩
  case cons =>
    obtain ⟨ans, hans, rfl⟩ := execAsmStep_eq_next hb
    obtain ⟨-, rfl⟩ : ans.transient = tr ∧ ans.frame = fr := by simpa using htr
    obtain ⟨gs, c, hgs, rfl⟩ := execAsmFeed_eq_next hrest
    obtain rfl : gs = fs := by simpa using hfs
    exact execAsmFeed_eq (by rw [asmFeed_cons hans]; exact congrArg _ hgs)

/-! ### How many frames a chunk completes -/

/-- At least so many bytes must come before a frame can be complete, by `st` alone (30_encoding.md R80). -/
def bytesAway (st : BitVec 3) : Nat :=
  if st = stReady then 4 else if st = stLengthHigh then 3 else if st = stLengthLow then 2 else 1

@[simp] theorem bytesAway_stReady : bytesAway stReady = 4 := rfl
@[simp] theorem bytesAway_stLengthHigh : bytesAway stLengthHigh = 3 := rfl
@[simp] theorem bytesAway_stLengthLow : bytesAway stLengthLow = 2 := rfl
@[simp] theorem bytesAway_stPayload : bytesAway stPayload = 1 := rfl

theorem bytesAway_bounds : ∀ st, 1 ≤ bytesAway st ∧ bytesAway st ≤ 4 := by decide

section
variable {max : Half} {a c : AsmState}

/-- A byte brings a frame nearer by one at most, and a complete frame is four bytes before the next. -/
theorem bytesAway_step {b : Byte} {ans : StepAnswer} (h : asmStep max b a = some ans) :
    4 * ans.frame.toList.length + bytesAway a.regs.st ≤ 1 + bytesAway ans.asm.regs.st := by
  have hbound := (bytesAway_bounds a.regs.st).2
  rcases asmStep_cases max b a with
    ⟨-, -, e⟩ | ⟨-, -, hst, -, e⟩ | ⟨-, -, hst, -, e⟩ | ⟨-, -, hst, e⟩ | ⟨-, -, hst, -, e⟩ | ⟨-, -, -, -, e⟩ |
    ⟨-, -, hst, -, e⟩ | ⟨-, -, hst, -, e⟩ <;> cases h.symm.trans e
  · simp; omega
  · simp [hst]
  · simp [hst]
  · simp [hst]
  · simp [hst]
  · simp; omega
  · simp [hst]
  · simp [hst]

theorem asmFeed_frames_bound {chunk : List Byte} {fs : List Emitted} (h : asmFeed max chunk a = some (fs, c)) :
    4 * fs.length + bytesAway a.regs.st ≤ chunk.length + 4 := by
  induction chunk generalizing a fs with
  | nil =>
    cases h
    simpa using (bytesAway_bounds _).2
  | cons b rest ih =>
    obtain ⟨ans, gs, hstep, hrest, rfl⟩ := asmFeed_cons_cases h
    have hb := bytesAway_step hstep
    have hr := ih hrest
    simp only [List.length_append, List.length_cons]
    omega

end

/-- Settles O29: every frame but the first takes four bytes of the chunk, and the first takes one at least. -/
theorem feedEmitsAtMostAFourthMore : Obligations.FeedEmitsAtMostAFourthMore := by
  intro s t chunk fs hne h hout
  obtain ⟨gs, c, hfeed, rfl⟩ := execAsmFeed_eq_next h
  obtain rfl : gs = fs := by simpa using hout
  have hbound := asmFeed_frames_bound hfeed
  have haway := (bytesAway_bounds s.regs.st).1
  have hpos := List.length_pos_iff.2 hne
  omega

/-! ### Wire frames -/

section
variable {max : Half} {a : AsmState}

/-- A well-formed Ready block has the registers of reset (10_state.md R26). -/
theorem regs_eq_readyRegs {r : AsmRegs} (hw : wfRegs max r = true) (hst : r.st = stReady) : r = readyRegs := by
  obtain ⟨st, len, rem, wr⟩ := r
  obtain rfl : st = stReady := hst
  rcases (wfRegs_iff _ _).1 hw with ⟨-, rfl, rfl, rfl⟩ | ⟨h, -⟩ | ⟨h, -⟩ | ⟨h, -⟩
  · rfl
  · exact absurd (show stReady = stLengthHigh from h) (by decide)
  · exact absurd (show stReady = stLengthLow from h) (by decide)
  · exact absurd (show stReady = stPayload from h) (by decide)

/-- A byte that completes no frame leaves the feed to the rest. -/
theorem asmFeed_cons_silent {b : Byte} {ans : StepAnswer} (h : asmStep max b a = some ans)
    (hf : ans.frame = none) (rest : List Byte) : asmFeed max (b :: rest) a = asmFeed max rest ans.asm := by
  simp [asmFeed_cons h, hf]

/-- The delimiter and the high length byte, whatever it is (41_assembler.md R131, R133). -/
theorem asmFeed_delimiter_high (hr : a.regs = readyRegs) (h : Byte) (rest : List Byte) :
    asmFeed max (0x7E#8 :: h :: rest) a =
      asmFeed max rest (a.withRegs ⟨stLengthLow, be16 h 0#8, 0#16, 0#16⟩) := by
  have hw : wfRegs max a.regs = true := hr ▸ wfRegs_readyRegs max
  have hw' : wfRegs max ⟨stLengthHigh, 0#16, 0#16, 0#16⟩ = true := by simp [wfRegs_iff]
  have hlenh := asmStep_lenh (a := a.withRegs ⟨stLengthHigh, 0#16, 0#16, 0#16⟩) (b := h) hw' rfl
  rw [asmFeed_cons_silent (asmStep_sof hw (hr ▸ rfl)) rfl]
  exact asmFeed_cons_silent hlenh rfl rest

/-- The registers after the high length byte are well-formed and declare it with any low byte. -/
theorem lengthLow_regs (max : Half) (h l : Byte) :
    wfRegs max ⟨stLengthLow, be16 h 0#8, 0#16, 0#16⟩ = true ∧
      declaredLength ⟨stLengthLow, be16 h 0#8, 0#16, 0#16⟩ l = be16 h l := by
  simp [wfRegs_iff, declaredLength]

/-- A header that declares a length inside the capacity begins the payload (41_assembler.md R134). -/
theorem asmFeed_header (hr : a.regs = readyRegs) {h l : Byte} (hfits : (be16 h l).toNat ≤ max.toNat)
    (rest : List Byte) : asmFeed max (0x7E#8 :: h :: l :: rest) a =
      asmFeed max rest (a.withRegs ⟨stPayload, be16 h l, be16 h l, 0#16⟩) := by
  obtain ⟨hw, hlen⟩ := lengthLow_regs max h l
  have hlenl := asmStep_lenl (a := a.withRegs ⟨stLengthLow, be16 h 0#8, 0#16, 0#16⟩) (b := l) hw rfl
    (by rwa [AsmState.withRegs_regs, hlen])
  rw [asmFeed_delimiter_high hr, asmFeed_cons_silent hlenl rfl, armLenl, quietStep_asm, AsmState.withRegs_regs, hlen]
  rfl

/-- A header that declares a length above the capacity leaves the block Ready (41_assembler.md R135). -/
theorem asmFeed_oversize_header (hr : a.regs = readyRegs) {h l : Byte} (hover : max.toNat < (be16 h l).toNat)
    (rest : List Byte) : asmFeed max (0x7E#8 :: h :: l :: rest) a =
      asmFeed max rest (a.withRegs readyRegs) := by
  obtain ⟨hw, hlen⟩ := lengthLow_regs max h l
  have hovf := asmStep_lenlOvf (a := a.withRegs ⟨stLengthLow, be16 h 0#8, 0#16, 0#16⟩) (b := l) hw rfl
    (by rwa [AsmState.withRegs_regs, hlen])
  rw [asmFeed_delimiter_high hr, asmFeed_cons_silent hovf rfl]
  rfl

/-- The payload bytes still to come, `0x7E` among them, are stored behind the bytes that are there
(41_assembler.md R136). -/
theorem asmFeed_payload {p : List Byte} (hw : wfRegs max a.regs = true) (hst : a.regs.st = stPayload)
    (hp : p.length = a.regs.rem.toNat) :
    ∃ c, asmFeed max p a = some ([], c) ∧ wfRegs max c.regs = true ∧ c.regs.st = stPayload ∧
      c.regs.len = a.regs.len ∧ c.regs.rem = 0#16 ∧
      bufRead c.buf c.regs.wr.toNat = bufRead a.buf a.regs.wr.toNat ++ p := by
  induction p generalizing a with
  | nil =>
    have hrem : a.regs.rem = 0#16 := BitVec.eq_of_toNat_eq hp.symm
    exact ⟨a, rfl, hw, hst, rfl, hrem, (List.append_nil _).symm⟩
  | cons b rest ih =>
    have hr : a.regs.rem ≠ 0#16 := by
      intro h
      simp [h] at hp
    obtain ⟨hwr, hrem, hw'⟩ := counters_after_pay hw hst hr
    have hrest : rest.length = (a.regs.rem - 1#16).toNat := by
      rw [List.length_cons] at hp
      omega
    have hpay := asmStep_pay (b := b) hw hst hr
    obtain ⟨c, hfeed, hcw, hcst, hclen, hcrem, hbuf⟩ :=
      ih (a := (quietStep _ (a.withBuf (a.buf.write a.regs.wr.toNat b))).asm) hw' hst hrest
    refine ⟨c, (asmFeed_cons_silent hpay rfl rest).trans hfeed, hcw, hcst, hclen, hcrem, hbuf.trans ?_⟩
    show bufRead (a.buf.write _ b) (a.regs.wr + 1#16).toNat ++ rest = _
    rw [hwr, bufRead_succ, bufRead_write_at, bufByte_write_same, List.append_assoc, List.singleton_append]

/-- The bytes of a wire frame that fits are one frame, and the block is Ready again (41_assembler.md R144). -/
theorem asmFeed_wireFrame (hr : a.regs = readyRegs) {f : Frame} (hfits : f.payload.length ≤ max.toNat) :
    ∃ c, asmFeed max (wireFrame f) a = some ([emitted f], c) ∧ c.regs = readyRegs := by
  have hlen : f.length.toNat = f.payload.length := by
    have hmax := max.isLt
    rw [Frame.length, BitVec.toNat_ofNat, Nat.mod_eq_of_lt (by omega)]
  have hw : wfRegs max ⟨stPayload, f.length, f.length, 0#16⟩ = true :=
    (wfRegs_payload_iff rfl).2 ⟨hlen ▸ hfits, Nat.zero_add _⟩
  obtain ⟨c, hfeed, hcw, hcst, hclen, hcrem, hbuf⟩ :=
    asmFeed_payload (a := a.withRegs ⟨stPayload, f.length, f.length, 0#16⟩) (p := f.payload) hw rfl hlen.symm
  have hheader := asmFeed_header (max := max) hr (h := hiByte f.length) (l := loByte f.length)
    (by rw [be16_hiByte_loByte, hlen]; exact hfits) (f.payload ++ [f.checksum])
  have hpayload : bufRead c.buf c.regs.len.toNat = f.payload := by
    obtain ⟨hwrlen, -⟩ := wr_eq_len hcw hcst hcrem
    rw [← hwrlen, hbuf]
    rfl
  refine ⟨c.withRegs readyRegs, ?_, rfl⟩
  rw [wireFrame, hheader, be16_hiByte_loByte, asmFeed_append_of hfeed (asmFeed_ck hcw hcst hcrem f.checksum),
    hpayload]
  rfl

/-- Wire frames one after another are these frames in order. -/
theorem asmFeed_wireFrames (frames : List Frame) (hr : a.regs = readyRegs)
    (hfits : ∀ f ∈ frames, f.payload.length ≤ max.toNat) :
    ∃ c, asmFeed max (frames.flatMap wireFrame) a = some (frames.map emitted, c) ∧ c.regs = readyRegs := by
  induction frames generalizing a with
  | nil => exact ⟨a, rfl, hr⟩
  | cons f rest ih =>
    obtain ⟨hf, hrest⟩ := List.forall_mem_cons.1 hfits
    obtain ⟨c, hone, hc⟩ := asmFeed_wireFrame hr hf
    obtain ⟨d, hmany, hd⟩ := ih hc hrest
    exact ⟨d, asmFeed_append_of hone hmany, hd⟩

end

/-- Settles O30: from the registers of reset every wire frame is emitted and leads back to them. -/
theorem wireFramesAreAssembledInOrder : Obligations.WireFramesAreAssembledInOrder := by
  intro s frames hw hst hfits
  have hr := regs_eq_readyRegs hw hst
  obtain ⟨c, hfeed, hc⟩ := asmFeed_wireFrames frames hr hfits
  exact ⟨_, execAsmFeed_eq hfeed, rfl, hc.trans hr.symm, rfl, rfl⟩

/-- Settles O32: the refused length leaves a Ready block, which discards the noise and assembles the frame. -/
theorem oversizeLengthIsSurvived : Obligations.OversizeLengthIsSurvived := by
  intro s h l noise f hw hst hover hnoise hfits
  have hr := regs_eq_readyRegs hw hst
  have hdiscard := asmFeed_noise (a := s.toAsmState.withRegs readyRegs) (wfRegs_readyRegs s.cfg.maxPayload) rfl hnoise
  obtain ⟨c, hframe, hc⟩ := asmFeed_wireFrame (a := s.toAsmState.withRegs readyRegs) rfl hfits
  have hheader := asmFeed_oversize_header hr (be16_toNat h l ▸ hover) (noise ++ wireFrame f)
  exact ⟨_, execAsmFeed_eq (hheader.trans (asmFeed_append_of hdiscard hframe)), rfl, hc.trans hr.symm⟩

/-! ### Bytes one by one -/

/-- A byte offered on the port `in_data` is the step of that byte (10_state.md R36). -/
theorem step_byte {s : State} {b : Byte} {rest : List (List Byte)}
    (hreq : s.requests = [Port.code .inData, b] :: rest) : step s = execAsmStep b (s.withRequests rest) := by
  have hdec : decode s.cfg.maxPayload s.regs [Port.code .inData, b] = .ok (armInstr b (armAt b s)) := by
    rw [decode_code_cons, decodeOperands, armAt]
  rw [stepRunsTheDecodedInstruction s _ _ _ hreq hdec]
  exact exec_armInstr b (s.withRequests rest)

/-- A run that is offered a chunk byte by byte ends where the feed of the chunk ends, with its frames. -/
theorem run_byteRequests (chunk : List Byte) (later : List (List Byte)) {s : State}
    (hreq : s.requests = byteRequests chunk ++ later) :
    ∃ outs t, run chunk.length s = some (outs, t) ∧
      asmFeed s.cfg.maxPayload chunk s.toAsmState = some (outs.flatMap Output.frames, t.toAsmState) ∧
      t.cfg = s.cfg ∧ t.requests = later := by
  induction chunk generalizing s with
  | nil => exact ⟨[], s, rfl, rfl, rfl, hreq⟩
  | cons b rest ih =>
    obtain ⟨ans, hans, heq⟩ := execAsmStep_next b (s.withRequests (byteRequests rest ++ later))
    obtain ⟨outs, t, hrun, hfeed, hcfg, hlater⟩ :=
      ih (s := (s.withRequests (byteRequests rest ++ later)).afterStep ans) rfl
    have hstep : step s = _ := (step_byte hreq).trans heq
    refine ⟨.step ans.transient ans.frame :: outs, t, ?_, ?_, hcfg, hlater⟩
    · rw [List.length_cons, run, hstep]
      simp [hrun]
    · rw [List.flatMap_cons, frames_step]
      exact (asmFeed_cons hans rest).trans (congrArg _ hfeed)

/-- Settles O33: both are the fold of the hardware's steps. -/
theorem runningBytesIsFeedingThem : Obligations.RunningBytesIsFeedingThem := by
  intro s chunk later hreq
  obtain ⟨outs, t, hrun, hfeed, hcfg, hlater⟩ := run_byteRequests chunk later hreq
  exact ⟨outs, t, _, hrun, execAsmFeed_eq hfeed, rfl, rfl, rfl, hcfg, hlater⟩

end Sys2Proof.Machine
end

section
/-! SUPPORT. The decoder of I/O samples (42_io_decoder.md): what it answers for every payload, which bytes the
answer depends on, and the obligations of unit DEC. -/

namespace Sys2Proof.Machine

/-! ### What the decoder answers -/

theorem exec_decIo {f : Frame} (h : f.payload.head? = some 0x92#8) (s : State) :
    exec (.decIo f) s = .next (s.withOut (.dec (decodeIoSample f.payload))) :=
  if_pos ((isIo_iff f).2 h)

theorem exec_decNa {f : Frame} (h : f.payload.head? ≠ some 0x92#8) (s : State) :
    exec (.decNa f) s = .next (s.withOut (.dec .notApplicable)) :=
  if_neg (mt (isIo_iff f).1 h)

/-- Where the analog values begin (30_encoding.md R89). -/
def analogOffset (p : List Byte) : Nat := if payloadHalf p 13 = 0#16 then 16 else 18

/-- The sample of a payload that is long enough for its masks (42_io_decoder.md R160). -/
def sampleOf (p : List Byte) : IoSample :=
  { digitalMask := payloadHalf p 13
    digitalValues := if payloadHalf p 13 = 0#16 then 0#16 else payloadHalf p 16
    analogMask := payloadByte p 15
    analog := analogChannels p (payloadByte p 15) (analogOffset p) }

theorem neededLength_eq (p : List Byte) :
    neededLength p = analogOffset p + 2 * popcount (payloadByte p 15) := by
  unfold neededLength analogOffset
  split_ifs <;> omega

theorem decodeAnalog_long {p : List Byte} {v : Half} {off : Nat}
    (h : off + 2 * popcount (payloadByte p 15) ≤ p.length) :
    decodeAnalog p v off = .ioSample ⟨payloadHalf p 13, v, payloadByte p 15,
      analogChannels p (payloadByte p 15) off⟩ (sourceAddress p) :=
  if_neg (Nat.not_lt.2 h)

/-- A payload that is long enough for its masks is decoded (42_io_decoder.md R160, R165 to R168). -/
theorem decodeIoSample_long {p : List Byte} (h16 : 16 ≤ p.length) (hneed : neededLength p ≤ p.length) :
    decodeIoSample p = .ioSample (sampleOf p) (sourceAddress p) := by
  rw [decodeIoSample, if_neg (Nat.not_lt.2 h16)]
  rw [neededLength_eq, analogOffset] at hneed
  by_cases hd : payloadHalf p 13 = 0#16
  · rw [if_pos hd] at hneed
    simp [hd, decodeAnalog_long hneed, sampleOf, analogOffset]
  · rw [if_neg hd] at hneed
    have h18 : ¬ p.length < 18 := by omega
    simp [hd, h18, decodeAnalog_long hneed, sampleOf, analogOffset]

/-- All that the decoder can answer for a sample: Malformed, or its fields. -/
theorem decodeIoSample_cases (p : List Byte) :
    ((p.length < 16 ∨ p.length < neededLength p) ∧ decodeIoSample p = .malformed) ∨
    (16 ≤ p.length ∧ neededLength p ≤ p.length ∧
      decodeIoSample p = .ioSample (sampleOf p) (sourceAddress p)) := by
  by_cases h : p.length < 16 ∨ p.length < neededLength p
  · exact .inl ⟨h, (decodeIoSample_malformed p).2 h⟩
  · obtain ⟨h16, hneed⟩ := not_or.1 h
    exact .inr ⟨Nat.not_lt.1 h16, Nat.not_lt.1 hneed,
      decodeIoSample_long (Nat.not_lt.1 h16) (Nat.not_lt.1 hneed)⟩

theorem decodeIoSample_ne_notApplicable (p : List Byte) : decodeIoSample p ≠ .notApplicable := by
  rcases decodeIoSample_cases p with ⟨-, h⟩ | ⟨-, -, h⟩ <;> simp [h]

/-! ### Which bytes the answer depends on -/

theorem popcount_eq_bitsBelow (m : Byte) : popcount m = bitsBelow m 8 := rfl

theorem bitsBelow_mono (m : Byte) {i j : Nat} (h : i ≤ j) : bitsBelow m i ≤ bitsBelow m j := by
  induction h with
  | refl => exact Nat.le_refl _
  | step _ ih =>
    rw [bitsBelow_succ]
    omega

/-- A channel that is present has its two bytes before the end of the needed length. -/
theorem bitsBelow_lt_popcount {m : Byte} {ch : Fin 8} (h : m.getLsbD ch = true) :
    bitsBelow m ch < popcount m := by
  have hsucc := bitsBelow_succ m ch
  rw [if_pos h] at hsucc
  have hmono := bitsBelow_mono m (i := ch + 1) ch.isLt
  rw [popcount_eq_bitsBelow]
  omega

theorem analogOffset_bounds (p : List Byte) : 16 ≤ analogOffset p ∧ analogOffset p ≤ neededLength p := by
  rw [neededLength_eq]
  unfold analogOffset
  split_ifs <;> omega

theorem payloadHalf_congr {p q : List Byte} {k : Nat} (h : payloadByte p k = payloadByte q k)
    (h' : payloadByte p (k + 1) = payloadByte q (k + 1)) : payloadHalf p k = payloadHalf q k := by
  rw [payloadHalf, payloadHalf, h, h']

/-- The decoder reads the bytes below the needed length, but for the options and the sample count (R164). -/
theorem sample_congr {p q : List Byte}
    (h : ∀ k, k ≠ 11 → k ≠ 12 → k < neededLength p → payloadByte p k = payloadByte q k) :
    neededLength p = neededLength q ∧ sampleOf p = sampleOf q ∧ sourceAddress p = sourceAddress q := by
  have hoff := analogOffset_bounds p
  have hmask : payloadHalf p 13 = payloadHalf q 13 :=
    payloadHalf_congr (h 13 (by decide) (by decide) (by omega)) (h 14 (by decide) (by decide) (by omega))
  have hana : payloadByte p 15 = payloadByte q 15 := h 15 (by decide) (by decide) (by omega)
  have hoffset : analogOffset p = analogOffset q := by rw [analogOffset, analogOffset, hmask]
  refine ⟨by rw [neededLength_eq, neededLength_eq, hoffset, hana], ?sample, ?address⟩
  case sample =>
    have hdig : payloadHalf p 13 ≠ 0#16 → payloadHalf p 16 = payloadHalf q 16 := fun hd => by
      rw [analogOffset, if_neg hd] at hoff
      exact payloadHalf_congr (h 16 (by decide) (by decide) (by omega)) (h 17 (by decide) (by decide) (by omega))
    have hch : analogChannels p (payloadByte p 15) (analogOffset p) =
        analogChannels q (payloadByte q 15) (analogOffset q) := by
      refine Vector.ext fun ch hlt => ?_
      have hp := analogChannels_get p (payloadByte p 15) (analogOffset p) ⟨ch, hlt⟩
      have hq := analogChannels_get q (payloadByte q 15) (analogOffset q) ⟨ch, hlt⟩
      refine hp.trans (Eq.trans ?_ hq.symm)
      rw [← hana, ← hoffset]
      split_ifs with hbit
      · have hlt := bitsBelow_lt_popcount hbit
        have hneed := neededLength_eq p
        rw [payloadHalf_congr (h _ (by omega) (by omega) (by omega)) (h _ (by omega) (by omega) (by omega))]
      · rfl
    rw [sampleOf, sampleOf, ← hmask, ← hch, hana]
    split_ifs with hd
    · rfl
    · rw [hdig hd]
  case address =>
    refine Vector.ext fun i hi => ?_
    simpa [sourceAddress] using h (1 + i) (by omega) (by omega) (by omega)

/-- Payloads of one length that agree on what the decoder reads are decoded alike. -/
theorem decodeIoSample_congr {p q : List Byte} (hlen : p.length = q.length)
    (h : ∀ k, k ≠ 11 → k ≠ 12 → payloadByte p k = payloadByte q k) : decodeIoSample p = decodeIoSample q := by
  obtain ⟨hneed, hsample, haddr⟩ := sample_congr fun k h11 h12 _ => h k h11 h12
  rcases decodeIoSample_cases p with ⟨hshort, hp⟩ | ⟨h16, hfits, hp⟩
  · rw [hlen, hneed] at hshort
    rw [hp, (decodeIoSample_malformed q).2 hshort]
  · rw [hlen] at h16
    rw [hlen, hneed] at hfits
    rw [hp, decodeIoSample_long h16 hfits, hsample, haddr]

/-- Bytes behind the needed length do not change a sample (42_io_decoder.md R169). -/
theorem decodeIoSample_append {p : List Byte} (surplus : List Byte) (h16 : 16 ≤ p.length)
    (hfits : neededLength p ≤ p.length) : decodeIoSample (p ++ surplus) = decodeIoSample p := by
  obtain ⟨hneed, hsample, haddr⟩ := sample_congr (p := p) (q := p ++ surplus) fun k _ _ hk => by
    rw [payloadByte, payloadByte, List.getD_append _ _ _ _ (by omega)]
  have hlen : p.length ≤ (p ++ surplus).length := by simp
  rw [decodeIoSample_long h16 hfits, decodeIoSample_long (h16.trans hlen) (hneed ▸ hfits.trans hlen), hsample, haddr]

/-! ### The obligations -/

/-- Settles O38: a sample is Malformed or has its fields, and no other frame is decoded. -/
theorem otherFramesAreNotApplicable : Obligations.OtherFramesAreNotApplicable := by
  refine ⟨fun s f h => exec_decNa h s, fun s f => ?selected⟩
  case selected =>
    by_cases h : f.payload.head? = some 0x92#8
    · have hrow : decInstr f = .decIo f := if_pos ((isIo_iff f).2 h)
      rw [hrow, exec_decIo h]
      simp [h, State.withOut, decodeIoSample_ne_notApplicable]
    · have hrow : decInstr f = .decNa f := if_neg (mt (isIo_iff f).1 h)
      exact ⟨fun _ => h, fun _ => hrow ▸ exec_decNa h s⟩

/-- Settles O39: the two length tests of the decoder are one comparison with the needed length. -/
theorem shortSampleFramesAreMalformed : Obligations.ShortSampleFramesAreMalformed := by
  intro s f h
  rw [exec_decIo h, ← decodeIoSample_malformed]
  simp [State.withOut]

/-- Settles O40: the fields are read at the offsets of R89, a channel's place by the mask bits below it. -/
theorem sampleFieldsAreDecoded : Obligations.SampleFieldsAreDecoded := by
  intro s f h h16 hneed
  refine ⟨sampleOf f.payload, sourceAddress f.payload,
    by rw [exec_decIo h, decodeIoSample_long h16 hneed]; rfl, be16_toNat _ _, ?values, rfl, fun ch => ?channel,
    fun i => ?address⟩
  case values =>
    show (if payloadHalf f.payload 13 = 0#16 then 0#16 else payloadHalf f.payload 16).toNat =
      if payloadHalf f.payload 13 = 0#16 then 0 else _
    split_ifs
    · rfl
    · exact be16_toNat _ _
  case channel => exact analogChannels_get f.payload (payloadByte f.payload 15) (analogOffset f.payload) ch
  case address => simp [sourceAddress, payloadByte]

/-- Settles O41: the decoder reads the bytes below the needed length but for offsets 11 and 12, and no checksum. -/
theorem decodeIgnoresWhatItSkips : Obligations.DecodeIgnoresWhatItSkips := by
  refine ⟨fun s p q c d hp hq hlen h => ?skipped, fun s p surplus c d hp h16 hneed => ?surplus,
    fun s p c d hp => ?checksum⟩
  case skipped =>
    have hbytes : ∀ k, k ≠ 11 → k ≠ 12 → payloadByte p k = payloadByte q k := fun k h11 h12 => by
      rw [payloadByte, payloadByte, List.getD_eq_getElem?_getD, List.getD_eq_getElem?_getD, h k h11 h12]
    rw [exec_decIo hp, exec_decIo hq, decodeIoSample_congr hlen hbytes]
  case surplus =>
    have hhead : (p ++ surplus).head? = some 0x92#8 := by simp [hp]
    rw [exec_decIo hhead, exec_decIo hp, decodeIoSample_append surplus h16 hneed]
  case checksum => rw [exec_decNa hp, exec_decNa hp]

end Sys2Proof.Machine
end

section
/-! SUPPORT. The conversions as arithmetic (43_scaling.md), and the obligations of unit CNV; with them the
equivalent form of CKS.VERIFY (40_checksum.md R123). -/

namespace Sys2Proof.Machine

/-! ### Rounding -/

/-- An exact half goes up (00_scope.md R11). -/
theorem roundDiv_halfUp (n d : Nat) :
    roundDiv .halfUp n d = if 2 * (n % d) < d then n / d else n / d + 1 := by
  simp only [roundDiv]
  split_ifs <;> rfl

/-- An exact half goes to the even neighbour (00_scope.md R11). -/
theorem roundDiv_halfEven (n d : Nat) :
    roundDiv .halfEven n d =
      if 2 * (n % d) < d ∨ (2 * (n % d) = d ∧ n / d % 2 = 0) then n / d else n / d + 1 := by
  simp only [roundDiv]
  split_ifs <;> omega

theorem roundDiv_halfEven_tie {n d : Nat} (h : 2 * (n % d) = d) :
    roundDiv .halfEven n d = n / d + n / d % 2 := by
  rw [roundDiv_halfEven]
  split_ifs <;> omega

/-- The even one of `k` and `k + 1` is a half away from `k + 1/2`, here in doubled values. -/
theorem even_neighbour (k : Nat) :
    (2 * (k + k % 2) = 2 * k + 1 - 1 ∨ 2 * (k + k % 2) = 2 * k + 1 + 1) ∧ (k + k % 2) % 2 = 0 := by
  rcases Nat.mod_two_eq_zero_or_one k with h | h <;> omega

/-- Apart from an exact half the two settings round alike. -/
theorem roundDiv_of_no_tie {n d : Nat} (h : 2 * (n % d) ≠ d) (ties : RoundTies) :
    roundDiv ties n d = roundDiv .halfUp n d := by
  cases ties with
  | halfUp => rfl
  | halfEven =>
    rw [roundDiv_halfUp, roundDiv_halfEven]
    simp [h]

theorem roundDiv_le (ties : RoundTies) (n d : Nat) : roundDiv ties n d ≤ n / d + 1 := by
  cases ties with
  | halfUp => rw [roundDiv_halfUp]; split_ifs <;> omega
  | halfEven => rw [roundDiv_halfEven]; split_ifs <;> omega

/-- The nearest integer to `n / 64`, in one division, unless an exact half goes to the even neighbour. -/
theorem roundDiv_sixtyFour {ties : RoundTies} {n : Nat} (h : 2 * (n % 64) ≠ 64 ∨ ties = .halfUp) :
    roundDiv ties n 64 = (2 * n + 64) / 128 := by
  have hup : roundDiv ties n 64 = roundDiv .halfUp n 64 := by
    rcases h with hn | rfl
    · exact roundDiv_of_no_tie hn ties
    · rfl
  rw [hup, roundDiv_halfUp]
  split_ifs <;> omega

/-! ### Percentages -/

/-- The percentage fits its seven bits (43_scaling.md R191). -/
theorem percent_toNat (ties : RoundTies) (raw : Half) :
    (percent ties raw).toNat = min (roundDiv ties (raw.toNat % 1024 * 120) 1200) 100 := by
  rw [percent, clamp, lowTen_eq, BitVec.toNat_ofNat]
  omega

/-- `min(round(v / 10), 100)` with the half up (43_scaling.md R192). -/
theorem percent_halfUp (raw : Half) :
    (percent .halfUp raw).toNat = min ((raw.toNat % 1024 + 5) / 10) 100 := by
  rw [percent_toNat, roundDiv_halfUp]
  split_ifs <;> omega

/-- `min(round(v / 10), 100)` with the half to the even neighbour (43_scaling.md R192). -/
theorem percent_halfEven (raw : Half) :
    (percent .halfEven raw).toNat =
      if raw.toNat % 1024 % 10 = 5 ∧ raw.toNat % 1024 / 10 % 2 = 0 then min (raw.toNat % 1024 / 10) 100
      else min ((raw.toNat % 1024 + 5) / 10) 100 := by
  rw [percent_toNat, roundDiv_halfEven]
  split_ifs <;> omega

theorem exec_cnvPct (raw : Half) (s : State) :
    exec (.cnvPct (some raw)) s = .next (s.withOut (.pct (some (percent s.cfg.roundTies raw)))) := rfl

/-- Settles O42: the conversion is `percent`, whose two settings are arithmetic. -/
theorem percentIsRoundedAndClamped : Obligations.PercentIsRoundedAndClamped := by
  intro s raw
  exact ⟨_, exec_cnvPct raw s, fun h => h ▸ percent_halfUp raw, fun h => h ▸ percent_halfEven raw⟩

/-- Settles O43: at a tie with an even quotient below 100 one setting goes up and the other stays. -/
theorem roundingSettingsDifferOnFiftyValues : Obligations.RoundingSettingsDifferOnFiftyValues := by
  intro s raw
  have hup := percent_halfUp raw
  have heven := percent_halfEven raw
  refine ⟨percent .halfUp raw, percent .halfEven raw, rfl, rfl, ?differ, fun j hj hv => ?values⟩
  case differ =>
    rw [Ne, ← BitVec.toNat_inj, hup, heven]
    constructor
    · intro hne
      split_ifs at hne
      · exact ⟨raw.toNat % 1024 / 20, by omega, by omega⟩
      · exact absurd rfl hne
    · rintro ⟨j, hj, hv⟩
      split_ifs <;> omega
  case values =>
    rw [hup, heven]
    split_ifs <;> omega

/-! ### Temperatures -/

theorem exec_cnvTemp (raw : Half) (s : State) :
    exec (.cnvTemp (some raw)) s = .next (s.withOut (.temp (some (temperature s.cfg raw)))) := rfl

theorem temperature_truncInt {cfg : Params} (h : cfg.tempMode = .truncInt) (raw : Half) :
    temperature cfg raw = tempTrunc raw := by
  rw [temperature, h]

theorem temperature_real {cfg : Params} (h : cfg.tempMode = .real) (raw : Half) :
    temperature cfg raw = tempReal cfg.roundTies raw := by
  rw [temperature, h]

/-- The truncated millivolts of R195. -/
def millivolts (raw : Half) : Nat := raw.toNat % 1024 * 1200 / 1024

theorem millivolts_le (raw : Half) : millivolts raw ≤ 1198 := by
  unfold millivolts
  omega

/-- One step of `v` is more than one millivolt (43_scaling.md R196). -/
theorem millivolts_inj {raw other : Half} (h : millivolts raw = millivolts other) :
    raw.toNat % 1024 = other.toNat % 1024 := by
  unfold millivolts at h
  omega

theorem tempTrunc_eq (raw : Half) : tempTrunc raw =
    ⟨some (BitVec.ofNat 11 (millivolts raw)), BitVec.ofNat 11 (millivolts raw),
      BitVec.ofNat 12 ((9 * millivolts raw + 1602) / 5)⟩ := by
  simp only [tempTrunc, lowTen_eq, millivolts]

/-- The millivolts fit their eleven bits (43_scaling.md R196). -/
theorem toNat_ofNat_millivolts (raw : Half) : (BitVec.ofNat 11 (millivolts raw)).toNat = millivolts raw := by
  have := millivolts_le raw
  rw [BitVec.toNat_ofNat]
  omega

/-- Settles O44: every result is a function of the millivolts, which fit their widths and tell values apart. -/
theorem temperatureIsTruncatedMillivolts : Obligations.TemperatureIsTruncatedMillivolts := by
  intro s raw hmode
  have hle := millivolts_le raw
  have hmv := toNat_ofNat_millivolts raw
  have hdegF : (BitVec.ofNat 12 ((9 * millivolts raw + 1602) / 5)).toNat = (9 * millivolts raw + 1602) / 5 := by
    rw [BitVec.toNat_ofNat]
    omega
  refine ⟨_, _, _, by rw [exec_cnvTemp, temperature_truncInt hmode, tempTrunc_eq]; rfl, hmv, ?reduced, rfl,
    by rw [hmv, hdegF], hmv.le.trans hle, by rw [hdegF]; omega, by rw [hdegF]; omega, fun other h => ?injective⟩
  case reduced =>
    rw [hmv, millivolts]
    omega
  case injective =>
    rw [exec_cnvTemp, exec_cnvTemp, temperature_truncInt hmode, temperature_truncInt hmode, tempTrunc_eq,
      tempTrunc_eq] at h
    have hsame : BitVec.ofNat 11 (millivolts other) = BitVec.ofNat 11 (millivolts raw) := by
      have hout := congrArg State.out (Host.Outcome.next.inj h)
      simp only [State.withOut_out, Output.temp.injEq, Option.some.injEq, TempResult.mk.injEq] at hout
      exact hout.2.1
    exact millivolts_inj (by rw [← toNat_ofNat_millivolts, hsame, toNat_ofNat_millivolts])

/-- The temperatures of the reading `real` fit their widths (43_scaling.md R197). -/
theorem tempReal_toNat (ties : RoundTies) (raw : Half) :
    (tempReal ties raw).degCx10.toNat = roundDiv ties (75 * (raw.toNat % 1024)) 64 ∧
    (tempReal ties raw).degFx10.toNat = roundDiv ties (135 * (raw.toNat % 1024)) 64 + 320 := by
  have hC := roundDiv_le ties (75 * (raw.toNat % 1024)) 64
  have hF := roundDiv_le ties (135 * (raw.toNat % 1024)) 64
  simp only [tempReal, lowTen_eq, BitVec.toNat_ofNat]
  omega

/-- Settles O45: a tie is where `v mod 64 = 32`, since 75 and 135 are odd. -/
theorem temperatureInRealMode : Obligations.TemperatureInRealMode := by
  intro s raw hmode
  obtain ⟨hC, hF⟩ := tempReal_toNat s.cfg.roundTies raw
  refine ⟨(tempReal s.cfg.roundTies raw).degCx10, (tempReal s.cfg.roundTies raw).degFx10,
    by rw [exec_cnvTemp, temperature_real hmode]; rfl, fun h => ?nearest, fun htie heven => ?tie⟩
  case nearest =>
    have hnoTieC : 2 * (75 * (raw.toNat % 1024) % 64) ≠ 64 ∨ s.cfg.roundTies = .halfUp :=
      h.imp_left fun hv => by omega
    have hnoTieF : 2 * (135 * (raw.toNat % 1024) % 64) ≠ 64 ∨ s.cfg.roundTies = .halfUp :=
      h.imp_left fun hv => by omega
    rw [hC, hF, roundDiv_sixtyFour hnoTieC, roundDiv_sixtyFour hnoTieF]
    omega
  case tie =>
    obtain ⟨q, hq⟩ : ∃ q, raw.toNat % 1024 = 64 * q + 32 := ⟨raw.toNat % 1024 / 64, by omega⟩
    have hdivC : 75 * (64 * q + 32) / 64 = 75 * q + 37 := by omega
    have hdivF : 135 * (64 * q + 32) / 64 = 135 * q + 67 := by omega
    have hwantC : 150 * (64 * q + 32) / 64 = 2 * (75 * q + 37) + 1 := by omega
    have hwantF : 270 * (64 * q + 32) / 64 = 2 * (135 * q + 67) + 1 := by omega
    obtain ⟨hnearC, hevenC⟩ := even_neighbour (75 * q + 37)
    obtain ⟨hnearF, hevenF⟩ := even_neighbour (135 * q + 67)
    rw [hC, hF, heven, hq, roundDiv_halfEven_tie (by omega), roundDiv_halfEven_tie (by omega), hdivC, hdivF,
      hwantC, hwantF, Nat.add_sub_cancel (m := 320)]
    exact ⟨hnearC, hevenC, hnearF, by omega, Nat.le_add_left _ _⟩

/-! ### What the conversions depend on -/

/-- Settles O46: both conversions read `v = raw[9:0]`, and NotAvailable is mapped to itself. -/
theorem conversionsSeeTenBitsAndPresence : Obligations.ConversionsSeeTenBitsAndPresence := by
  refine ⟨fun s raw other h => ?lowBits, fun s => ⟨rfl, rfl⟩⟩
  case lowBits =>
    have hv : lowTen raw = lowTen other := by rw [lowTen_eq, lowTen_eq, h]
    constructor
    · rw [exec_cnvPct, exec_cnvPct, percent, percent, hv]
    · simp only [exec_cnvTemp, temperature, tempTrunc, tempReal, hv]

/-- Settles O36: the checksum is the claimed byte exactly when the two add up to `0xFF`. -/
theorem verifyBySummingEverything : Obligations.VerifyBySummingEverything := by
  intro s bytes c
  have hsum : checksum bytes = c ↔ ((bytes.map BitVec.toNat).sum + c.toNat) % 256 = 0xFF := by
    rw [← BitVec.toNat_inj, checksum_toNat]
    have := c.isLt
    omega
  rw [exec_cksVerify, ← decide_eq_decide.2 hsum]
  rfl

end Sys2Proof.Machine
end

section
/-! SUPPORT. The builder's frames (44_builder.md): their bytes, what a change of pin or level changes (R214), and
that they are wire frames which a Ready block assembles (R216). -/

namespace Sys2Proof.Machine

/-! ### The bytes of a frame -/

/-- What a builder row answers, through the selector that selects it: the pin is legal and these are the bytes. -/
theorem bytes_of_exec_bldInstr {pin : BitVec 3} {level : Bool} {dest : RemoteAddress} {s : State}
    {f : Vector Byte 20}
    (h : exec (bldInstr (pin ++ BitVec.ofBool level) dest) s = .next { s with out := .bld (.bytes f) }) :
    f = buildBytes dest pin level := by
  rw [exec_bldInstr] at h
  have hout := congrArg State.out (Host.Outcome.next.inj h)
  have hbuild : build dest pin level = .bytes f := by simpa using hout
  by_cases hpin : pin.toNat < 4
  · simp [build_illegal dest level hpin] at hbuild
  · simpa [build_legal dest level hpin] using hbuild.symm

theorem buildPayload_length (dest : RemoteAddress) (pin : BitVec 3) (level : Bool) :
    (buildPayload dest pin level).toList.length = 16 := Vector.length_toList

/-- The covered bytes are offsets 3 to 18 of the frame (30_encoding.md R92). -/
theorem buildBytes_payload (dest : RemoteAddress) (pin : BitVec 3) (level : Bool) :
    ((buildBytes dest pin level).toList.drop 3).take 16 = (buildPayload dest pin level).toList := by
  rw [buildBytes_toList, List.append_assoc]
  exact List.take_left' (buildPayload_length dest pin level)

/-- The layout of R92 and the checksum, for the row of any legal pin. -/
theorem exec_legal_row {i : Instr} {dest : RemoteAddress} {pin : BitVec 3} {level : Bool} (s : State)
    (hi : i = bldInstr (pin ++ BitVec.ofBool level) dest) (hpin : ¬ pin.toNat < 4) :
    ∃ (frame : Vector Byte 20) (ck : Byte), exec i s = .next { s with out := .bld (.bytes frame) } ∧
      frame.toList = [0x7E#8, 0x00#8, 0x10#8, 0x17#8, 0x00#8] ++ dest.toList ++
        [0x02#8, 0x44#8, pinDigit pin, levelParam level, ck] ∧
      ck.toNat = 255 - (((frame.toList.drop 3).take 16).map BitVec.toNat).sum % 256 := by
  refine ⟨buildBytes dest pin level, checksum (buildPayload dest pin level).toList, ?_, ?_, ?_⟩
  · rw [hi, exec_bldInstr, build_legal dest level hpin]
    rfl
  · rw [buildBytes_toList, buildPayload_toList]
    simp
  · rw [buildBytes_payload, checksum_toNat]

/-- Settles O47: each row is the build of its pin and level, in the layout of R92. -/
theorem buildersAnswerTheTwentyBytes : Obligations.BuildersAnswerTheTwentyBytes := by
  intro s dest i digit param hmem
  simp only [List.mem_cons, List.not_mem_nil, or_false, Prod.mk.injEq] at hmem
  rcases hmem with ⟨hi, rfl, rfl⟩ | ⟨hi, rfl, rfl⟩ | ⟨hi, rfl, rfl⟩ | ⟨hi, rfl, rfl⟩ | ⟨hi, rfl, rfl⟩ |
    ⟨hi, rfl, rfl⟩ | ⟨hi, rfl, rfl⟩ | ⟨hi, rfl, rfl⟩
  · exact exec_legal_row (pin := 4#3) (level := true) s hi (by decide)
  · exact exec_legal_row (pin := 4#3) (level := false) s hi (by decide)
  · exact exec_legal_row (pin := 5#3) (level := true) s hi (by decide)
  · exact exec_legal_row (pin := 5#3) (level := false) s hi (by decide)
  · exact exec_legal_row (pin := 6#3) (level := true) s hi (by decide)
  · exact exec_legal_row (pin := 6#3) (level := false) s hi (by decide)
  · exact exec_legal_row (pin := 7#3) (level := true) s hi (by decide)
  · exact exec_legal_row (pin := 7#3) (level := false) s hi (by decide)

/-- Settles O48: the pin test comes first, whichever selector carries the pin. -/
theorem buildOfPinsBelowFourIsRefused : Obligations.BuildOfPinsBelowFourIsRefused := by
  refine ⟨fun s pin level dest => ?refused, fun s pin level dest => ?selector, rfl⟩
  case refused =>
    have hpin : (pin.setWidth 3).toNat < 4 := by bv_omega
    have hexec : exec (.bldErr pin level dest) s =
      .next (s.withOut (.bld (build dest (pin.setWidth 3) level))) := rfl
    rw [hexec, build_illegal dest level hpin]
    rfl
  case selector =>
    rw [exec_bldInstr]
    by_cases hpin : pin.toNat < 4
    · simp [State.withOut, build_illegal dest level hpin, hpin]
    · simp [State.withOut, build_legal dest level hpin, hpin]

/-! ### A change of pin or level -/

/-- The seventeen bytes that every frame to one destination begins with (30_encoding.md R92). -/
def frameHead (dest : RemoteAddress) : List Byte :=
  [0x7E#8, 0x00#8, 0x10#8, 0x17#8, 0x00#8] ++ dest.toList ++ [0x02#8, 0x44#8]

/-- The checksum byte of a frame. -/
def frameChecksum (dest : RemoteAddress) (pin : BitVec 3) (level : Bool) : Byte :=
  checksum (buildPayload dest pin level).toList

theorem frameHead_length (dest : RemoteAddress) : (frameHead dest).length = 17 := by
  simp [frameHead]

theorem buildBytes_toList_eq_frameHead (dest : RemoteAddress) (pin : BitVec 3) (level : Bool) :
    (buildBytes dest pin level).toList =
      frameHead dest ++ [pinDigit pin, levelParam level, frameChecksum dest pin level] := by
  rw [frameChecksum, buildBytes_toList, buildPayload_toList, frameHead]
  simp

/-- Byte `k` of a frame, by its place behind the common head. -/
theorem buildBytes_get (dest : RemoteAddress) (pin : BitVec 3) (level : Bool) (k : Fin 20) :
    some (buildBytes dest pin level)[k] =
      if k.val < 17 then (frameHead dest)[k.val]?
      else [pinDigit pin, levelParam level, frameChecksum dest pin level][k.val - 17]? := by
  have h : some (buildBytes dest pin level)[k] = (buildBytes dest pin level).toList[k.val]? := by simp
  rw [h, buildBytes_toList_eq_frameHead, List.getElem?_append, frameHead_length]

/-- Where two frames to one destination differ (44_builder.md R214). -/
theorem buildBytes_get_ne_iff (dest : RemoteAddress) (pin qin : BitVec 3) (level mevel : Bool) (k : Fin 20) :
    (buildBytes dest pin level)[k] ≠ (buildBytes dest qin mevel)[k] ↔
      (k = 17 ∧ pinDigit pin ≠ pinDigit qin) ∨ (k = 18 ∧ levelParam level ≠ levelParam mevel) ∨
      (k = 19 ∧ frameChecksum dest pin level ≠ frameChecksum dest qin mevel) := by
  rw [Ne, ← Option.some_inj, buildBytes_get, buildBytes_get]
  by_cases hk : k.val < 17
  · have h17 : k ≠ 17 := by rintro rfl; exact absurd hk (by decide)
    have h18 : k ≠ 18 := by rintro rfl; exact absurd hk (by decide)
    have h19 : k ≠ 19 := by rintro rfl; exact absurd hk (by decide)
    simp [hk, h17, h18, h19]
  · have hlast : k = 17 ∨ k = 18 ∨ k = 19 := by omega
    rcases hlast with rfl | rfl | rfl <;> simp

theorem pinDigit_inj : ∀ pin qin : BitVec 3, pinDigit pin = pinDigit qin ↔ pin = qin := by decide

theorem levelParam_inj : ∀ level mevel : Bool, levelParam level = levelParam mevel ↔ level = mevel := by decide

/-- The next pin makes up for the parameter byte of `High` (44_builder.md R214). -/
theorem pinDigit_add_levelParam_next : ∀ pin qin : BitVec 3, qin.toNat = pin.toNat + 1 →
    pinDigit pin + levelParam false = pinDigit qin + levelParam true := by decide

/-- The checksum sees the pin and the level through the sum of their two bytes. -/
theorem frameChecksum_eq_iff (dest : RemoteAddress) (pin qin : BitVec 3) (level mevel : Bool) :
    frameChecksum dest pin level = frameChecksum dest qin mevel ↔
      pinDigit pin + levelParam level = pinDigit qin + levelParam mevel := by
  have hsum : ∀ pin level, (buildPayload dest pin level).toList.sum =
      ([0x17#8, 0x00#8] ++ dest.toList ++ [0x02#8, 0x44#8]).sum + (pinDigit pin + levelParam level) := by
    intro pin level
    rw [buildPayload_toList]
    simp only [List.sum_append, List.sum_cons, List.sum_nil, add_zero, add_assoc]
  rw [frameChecksum, frameChecksum, checksum_eq_iff_sum_eq, hsum, hsum, add_right_inj]

/-- Settles O49: the frames differ in the byte of what changed and in the checksum, which sees it. -/
theorem pinAndLevelChangeOneByteAndTheChecksum : Obligations.PinAndLevelChangeOneByteAndTheChecksum := by
  intro s dest pin qin level mevel f g hf hg
  obtain rfl := bytes_of_exec_bldInstr hf
  obtain rfl := bytes_of_exec_bldInstr hg
  refine ⟨fun hne hlevel k => ?pin, fun hpin hne k => ?level, fun hpin hlevel => by rw [hpin, hlevel],
    fun hnext hlow hhigh => ?next⟩
  case pin =>
    rw [buildBytes_get_ne_iff, Ne, Ne, Ne, frameChecksum_eq_iff, hlevel, add_left_inj, pinDigit_inj]
    simp [hne]
  case level =>
    rw [buildBytes_get_ne_iff, Ne, Ne, Ne, frameChecksum_eq_iff, hpin, add_right_inj, levelParam_inj]
    simp [hne]
  case next =>
    have hck : frameChecksum dest pin level = frameChecksum dest qin mevel := by
      rw [frameChecksum_eq_iff, hlow, hhigh]
      exact pinDigit_add_levelParam_next pin qin hnext
    by_contra hdiff
    simpa [hck] using (buildBytes_get_ne_iff dest pin qin level mevel 19).1 hdiff

/-! ### Looping a frame back -/

/-- The wire frame that a built frame is (44_builder.md R216). -/
def builtFrame (dest : RemoteAddress) (pin : BitVec 3) (level : Bool) : Frame :=
  ⟨(buildPayload dest pin level).toList, frameChecksum dest pin level⟩

theorem builtFrame_length (dest : RemoteAddress) (pin : BitVec 3) (level : Bool) :
    (builtFrame dest pin level).length = 16#16 := by
  rw [Frame.length, builtFrame, buildPayload_length]

/-- A built frame is in the wire format (30_encoding.md R80). -/
theorem buildBytes_toList_eq_wireFrame (dest : RemoteAddress) (pin : BitVec 3) (level : Bool) :
    (buildBytes dest pin level).toList = wireFrame (builtFrame dest pin level) := by
  rw [wireFrame, builtFrame_length, buildBytes_toList]
  rfl

/-- Its type is `0x17`, so the decoder does not apply (42_io_decoder.md R161). -/
theorem builtFrame_type (dest : RemoteAddress) (pin : BitVec 3) (level : Bool) :
    (builtFrame dest pin level).payload.head? ≠ some 0x92#8 := by
  rw [builtFrame, buildPayload_toList]
  show some 0x17#8 ≠ some 0x92#8
  decide

/-- Its checksum is that of its payload (44_builder.md R210). -/
theorem emitted_builtFrame (dest : RemoteAddress) (pin : BitVec 3) (level : Bool) :
    emitted (builtFrame dest pin level) = ⟨builtFrame dest pin level, true⟩ :=
  congrArg (Emitted.mk _) ((verifies_iff _ _).2 rfl)

/-- Settles O50: the bytes are a wire frame that fits, whose checksum is that of its payload. -/
theorem builtFramesLoopBack : Obligations.BuiltFramesLoopBack := by
  intro s dest pin level f hw hst hmax hf
  obtain rfl := bytes_of_exec_bldInstr hf
  have hr := regs_eq_readyRegs hw hst
  have hfits : (builtFrame dest pin level).payload.length ≤ s.cfg.maxPayload.toNat :=
    (buildPayload_length dest pin level).le.trans hmax
  obtain ⟨c, hfeed, hc⟩ := asmFeed_wireFrame hr hfits
  have hck : frameChecksum dest pin level = (buildBytes dest pin level)[(19 : Fin 20)] :=
    Option.some_inj.1 (buildBytes_get dest pin level 19).symm
  rw [← buildBytes_toList_eq_wireFrame, emitted_builtFrame] at hfeed
  exact ⟨_, builtFrame dest pin level, execAsmFeed_eq hfeed, rfl, hc.trans hr.symm, builtFrame_length _ _ _,
    (buildBytes_payload dest pin level).symm, hck,
    (otherFramesAreNotApplicable.2 s _).2 (builtFrame_type dest pin level)⟩

end Sys2Proof.Machine
end
